-- ==== Sys2Proof/Machine/Sparse.lean ====
section
/-! DEFINITION. A table from natural numbers to values held as a list of pairs in one canonical form: keys strictly
rising, no pair that holds what an unlisted key reads as. Program memory and the channels are two such tables. -/

namespace Sys2Proof.Machine

/-- What key `a` reads as: its pair's value, or `dflt` where no pair has that key. -/
def Sparse.get {α : Type} (dflt : α) : List (Nat × α) → Nat → α
  | [], _ => dflt
  | (k, v) :: rest, a => if k = a then v else Sparse.get dflt rest a

/-- The table without key `a`. -/
def Sparse.erase {α : Type} (l : List (Nat × α)) (a : Nat) : List (Nat × α) :=
  l.filter (fun e => e.1 != a)

/-- The pair `(a, v)` placed before the first larger key. -/
def Sparse.place {α : Type} (a : Nat) (v : α) : List (Nat × α) → List (Nat × α)
  | [] => [(a, v)]
  | (k, w) :: rest => if a < k then (a, v) :: (k, w) :: rest else (k, w) :: Sparse.place a v rest

/-- The table with key `a` reading as `v`; writing what an unlisted key reads as removes the pair. -/
def Sparse.put {α : Type} [DecidableEq α] (dflt : α) (l : List (Nat × α)) (a : Nat) (v : α) : List (Nat × α) :=
  if v = dflt then Sparse.erase l a else Sparse.place a v (Sparse.erase l a)

/-- The canonical form. -/
abbrev Sparse.WF {α : Type} (dflt : α) (l : List (Nat × α)) : Prop :=
  l.Pairwise (fun x y => x.1 < y.1) ∧ ∀ e ∈ l, e.2 ≠ dflt

/-- The table that holds the words of a list from key `a` on. -/
def Sparse.ofListFrom {α : Type} [DecidableEq α] (dflt : α) : Nat → List α → List (Nat × α)
  | _, [] => []
  | a, v :: vs => if v = dflt then Sparse.ofListFrom dflt (a + 1) vs else (a, v) :: Sparse.ofListFrom dflt (a + 1) vs

end Sys2Proof.Machine
end

