-- ==== Sys2Proof/Config.lean ====
section
/-! DEFINITION. The implementation parameters of R6, as plain data that a state carries: a statement about every
state is then a statement about every build the spec admits. There is no free value: the spec leaves no result of
an instruction undefined. -/

namespace Sys2Proof

/-- The parameters of R6 that a model takes as arguments. `none` is the spec's `UNBOUNDED`.
`L` is held by the memory, `K` is the length of the host's list of phase settings and `NMODES` is the three
modes of `Modes`. -/
structure Config where
  /-- `WORD_BITS`: none, or a finite width `N >= 64` (R6, R116, D2). -/
  wordBits : Option Nat
  /-- `CHANNEL_DEPTH`: none, or a finite number of values (R6, R68, D16). -/
  channelDepth : Option Nat
  /-- `MEM_CAPACITY`: the largest program a core can hold, none for a core that holds any (R6, D3).
  DESIGN CHOICE (log entry 4): the spec leaves it OPEN. -/
  memCapacity : Option Nat
  /-- `SEED`: the value the host puts on channel 0 after the first phase setting (R6). -/
  seed : Int
  deriving DecidableEq, Repr

/-- The default build: unbounded words, unbounded channels, `SEED = 0` (R6), any program length (log entry 4). -/
def Config.standard : Config where
  wordBits := none
  channelDepth := none
  memCapacity := none
  seed := 0

end Sys2Proof
end

