-- ==== Sys2Proof/Word.lean ====
section
/-! DEFINITION. A word of the machine, and every value it computes, is a mathematical integer, Lean's `Int` (R7, R53):
there are no bit vectors in this machine, so this file adds no type of word. It names the fields an instruction
word is made of; the digits that select them are read in Sys2Proof/Decode.lean. -/

namespace Sys2Proof

/-- The two parameter-addressing modes (R2, R83). -/
inductive Mode where
  | position
  | immediate
  deriving DecidableEq, Repr

/-- The three modes the decoder returns for every instruction word, whatever its opcode (R86, C8). -/
structure Modes where
  mode1 : Mode
  mode2 : Mode
  mode3 : Mode
  deriving DecidableEq, Repr

/-- The nine operations (R2, R82). -/
inductive Opcode where
  | add
  | multiply
  | input
  | output
  | jumpIfTrue
  | jumpIfFalse
  | lessThan
  | equals
  | halt
  deriving DecidableEq, Repr

end Sys2Proof
end

