-- ==== Sys2Proof/Machine/State.lean ====
section
/-! DEFINITION. What a core and its channels hold, as plain data, and the machine right after reset. -/

namespace Sys2Proof.Machine

/-- The run state of a core (R20, R24). -/
inductive Status where
  | ready
  | running
  | blockedOnInput
  | halted
  | faulted
  deriving DecidableEq, Repr

/-- The five fault kinds of the core (R180). The last two exist only under a finite parameter. -/
inductive FaultKind where
  | malformedInstruction
  | outOfBoundsAccess
  | starvedInput
  | wordOverflow
  | channelOverflow
  deriving DecidableEq, Repr

/-- The fault record `(kind, at, addr)` of R26 and R181. -/
structure FaultRecord where
  kind : FaultKind
  /-- `at`: the value of `ip` of the faulting instruction. -/
  atIp : Int
  /-- `addr`: the out-of-range address, for `OutOfBoundsAccess` only. -/
  addr : Option Int
  deriving DecidableEq, Repr

/-- What a `raise F(info)` of the pseudocode carries (R10): the kind, and the address for `OutOfBoundsAccess`. -/
structure Trap where
  kind : FaultKind
  addr : Option Int
  deriving DecidableEq, Repr

/-- Program memory: `size` is `L`, and `cells` lists the words that are not `Memory.unlisted`, addresses strictly
rising (R20, R22). A cell is a whole word: the machine has no bytes (R53), so `Host.Cell` cannot hold one
(log entry 1). -/
structure Memory where
  size : Nat
  cells : List (Nat × Int)
  deriving DecidableEq, Repr

/-- The contents of the channels: `(c, q)` for each channel `c` that holds a value, identifiers strictly rising, `q`
the list of words of R30, oldest first. Every natural number names a channel, and one that is not listed is empty
(R27, R231, log entry 7). -/
abbrev Channels := List (Nat × List Int)

/-- The state of one core, the record of R20. -/
structure CoreState where
  /-- program memory (R22) -/
  mem : Memory
  /-- the instruction pointer, an unbounded integer (R23) -/
  ip : Int
  /-- the run state (R24) -/
  status : Status
  /-- the source's flag (R25) -/
  finished : Bool
  /-- the fault record, none until the core faults (R26) -/
  fault : Option FaultRecord
  /-- the input channel reference (R27) -/
  inPort : Option Nat
  /-- the output channel reference (R27) -/
  outPort : Option Nat
  /-- every value OUTPUT has produced, oldest first (R28) -/
  outLog : List Int
  deriving DecidableEq, Repr

/-- What a step reads and writes: one core, the channels (R30), and the parameters of the build, which no step
changes (R6, R106). -/
structure State extends CoreState where
  /-- the parameters of the build (R6) -/
  cfg : Config
  /-- the contents of every channel (R30) -/
  chans : Channels
  deriving DecidableEq, Repr

/-- The ways a step could stop the machine outside the state: NONE. A fault of this hardware is a state, `Faulted`
with its record (R182), which `State.raise` enters, so nobody raises a fault of this type and a step always answers
a next state. Safe: no run is cut off by the model. -/
inductive Fault where
  deriving DecidableEq, Repr

/-- Why an instruction has no meaning in the model. -/
inductive Refusal where
  /-- Raised by an arm of `exec` whose instruction has no meaning yet: no arm does. Safe: the model stops. -/
  | notModelled (mnemonic : String)
  deriving DecidableEq, Repr

/-- A core as `new(program)` builds it, with the given memory (R35, R230). -/
def CoreState.fresh (mem : Memory) : CoreState where
  mem := mem
  ip := 0
  status := .ready
  finished := false
  fault := none
  inPort := none
  outPort := none
  outLog := []

/-- Right after reset: a core built from no program, not started and not wired, every channel empty, on the default
build (R35, R230, R231). A program is loaded from outside (log entry 13). -/
def State.reset : State where
  toCoreState := CoreState.fresh ⟨0, []⟩
  cfg := Config.standard
  chans := []

end Sys2Proof.Machine
end

