-- ==== Sys2Proof/Machine/Ops.lean ====
section
/-! DEFINITION. The named operations over memory, the channels and the core, and taking a fault. -/

namespace Sys2Proof.Machine

/-- What one step answers. -/
abbrev Outcome := Host.Outcome State Fault Refusal

/-! ### Program memory -/

/-- What a word of memory that no cell lists reads as. It is the form of the list and no choice about the machine:
every word of a loaded program holds its own value (R22), and a word 0 is one that needs no cell (log entry 2). -/
def Memory.unlisted : Int := 0

/-- The canonical form of memory: the cells in canonical form, all of them at addresses below `L`. -/
abbrev Memory.wf (m : Memory) : Prop :=
  Sparse.WF Memory.unlisted m.cells ∧ ∀ e ∈ m.cells, e.1 < m.size

/-- The word at address `a`, for an address below `L` (R8). -/
def Memory.word (m : Memory) (a : Nat) : Int :=
  Sparse.get Memory.unlisted m.cells a

/-- The memory a program is loaded into: `mem[i] = program[i]`, `L` its length (R22, R230). -/
def Memory.ofWords (ws : List Int) : Memory where
  size := ws.length
  cells := Sparse.ofListFrom Memory.unlisted 0 ws

/-- All the words of memory in address order, as the host reads them (R33). -/
def Memory.words (m : Memory) : List Int :=
  (List.range m.size).map m.word

/-- `mem[a] <- v` for an address the bounds check has passed; it never changes `L`, and there is no word outside
`[0, L)` to write (R52). -/
def Memory.store (m : Memory) (a : Nat) (v : Int) : Memory :=
  if a < m.size then { m with cells := Sparse.put Memory.unlisted m.cells a v } else m

/-- The trap of an access to an address outside `[0, L)` (R51, R52, R181). -/
def outOfBounds (a : Int) : Trap where
  kind := .outOfBoundsAccess
  addr := some a

/-- The bounds check that is the only address check of the machine (R51, R52, R54, R58). A negative address never
counts from the end of memory. -/
def checkAddress (m : Memory) (a : Int) : Except Trap Nat :=
  if 0 ≤ a ∧ a < m.size then .ok a.toNat else .error (outOfBounds a)

/-- `MemRead(a)` of R51. -/
def memRead (m : Memory) (a : Int) : Except Trap Int :=
  match checkAddress m a with
  | .error t => .error t
  | .ok d => .ok (m.word d)

/-- `MemWrite(a, v)` of R52. -/
def memWrite (m : Memory) (a : Int) (v : Int) : Except Trap Memory :=
  match checkAddress m a with
  | .error t => .error t
  | .ok d => .ok (m.store d v)

/-! ### The channels -/

/-- The canonical form of the channels. -/
abbrev Channels.wf (cs : Channels) : Prop :=
  Sparse.WF ([] : List Int) cs

/-- The list `q` of channel `c`, oldest first (R30). -/
def Channels.queue (cs : Channels) (c : Nat) : List Int :=
  Sparse.get [] cs c

/-- Channel `c` holding the list `q`. -/
def Channels.setQueue (cs : Channels) (c : Nat) (q : List Int) : Channels :=
  Sparse.put [] cs c q

/-- `ChanEmpty(c)` (R155). -/
def chanEmpty (cs : Channels) (c : Nat) : Bool :=
  (Channels.queue cs c).isEmpty

/-- `ChanPut(c, v)`: `q <- q ++ [v]` (R156). -/
def chanPut (cs : Channels) (c : Nat) (v : Int) : Channels :=
  Channels.setQueue cs c (Channels.queue cs c ++ [v])

/-- `ChanGet(c)`: the oldest value and the channels without it; none on an empty channel, to which R157 never
applies it. -/
def chanGet (cs : Channels) (c : Nat) : Option (Int × Channels) :=
  match Channels.queue cs c with
  | [] => none
  | v :: rest => some (v, Channels.setQueue cs c rest)

/-- A put finds channel `c` full: only under a finite `CHANNEL_DEPTH` (R68, R151, R159). -/
def chanFull (cfg : Config) (cs : Channels) (c : Nat) : Bool :=
  match cfg.channelDepth with
  | none => false
  | some depth => (Channels.queue cs c).length == depth

/-! ### The core -/

/-- Step 7 of R103: the instruction completes with the next `ip` at `t`, and the core is `Running` (R136). -/
def State.completeAt (s : State) (t : Int) : State :=
  { s with ip := t, status := .running }

/-- The word written to memory (R52). -/
def State.storeWord (s : State) (d : Nat) (v : Int) : State :=
  { s with mem := s.mem.store d v }

/-- The channels replaced. -/
def State.setChans (s : State) (cs : Channels) : State :=
  { s with chans := cs }

/-- `outLog <- outLog ++ [v]` (R28, R154). -/
def State.logOutput (s : State) (v : Int) : State :=
  { s with outLog := s.outLog ++ [v] }

/-- `block` of R10: nothing changes but the status (R152). -/
def State.blockOnInput (s : State) : State :=
  { s with status := .blockedOnInput }

/-- `halt` of R10: the status and with it the flag `finished`; `ip` stays (R133). -/
def State.haltNow (s : State) : State :=
  { s with status := .halted, finished := true }

/-- TAKING A FAULT, the machine's one exception entry (R182, R184): the status becomes `Faulted` and the fault
record is written with the kind, the `ip` of the instruction and the out-of-range address (R181); `ip`, memory, the
channels and `outLog` are as they were. There is no vector, no handler and no saved register,
and no return from it: a faulted core has no enabled step (R185, `State.enabled`). -/
def State.raise (s : State) (t : Trap) : State :=
  { s with status := .faulted, fault := some ⟨t.kind, s.ip, t.addr⟩ }

/-- The input channel of the core holds a value (R104). -/
def State.inputWaiting (s : State) : Bool :=
  match s.inPort with
  | none => false
  | some c => !chanEmpty s.chans c

/-- The core has an enabled step (R104). -/
def State.enabled (s : State) : Bool :=
  match s.status with
  | .running => true
  | .blockedOnInput => s.inputWaiting
  | .ready => false
  | .halted => false
  | .faulted => false

end Sys2Proof.Machine
end

