-- ==== Sys2Proof/Machine/Range.lean ====
section
/-! DEFINITION. The word range of a build. -/

namespace Sys2Proof

/-- `inRange(v)` of R7: always true under `UNBOUNDED`, else `-2^(N-1) <= v <= 2^(N-1) - 1`. -/
def Config.inRange (cfg : Config) (v : Int) : Bool :=
  match cfg.wordBits with
  | none => true
  | some n => decide (-(2 ^ (n - 1)) ≤ v) && decide (v ≤ 2 ^ (n - 1) - 1)

/-- The builds the spec admits: a finite word has at least 64 bits (R6). -/
def Config.admitted (cfg : Config) : Bool :=
  match cfg.wordBits with
  | none => true
  | some n => decide (64 ≤ n)

end Sys2Proof
end

