-- ==== Sys2Proof/Machine/Flags.lean ====
section
/-! DEFINITION. The machine has no condition codes (R29): a comparison is a word 1 or 0, a condition is a word
tested for zero, and the one check of a result is its range. -/

namespace Sys2Proof.Machine

/-- The word of a comparison: exactly 1 or 0 (R113, R114). -/
def truthWord (b : Bool) : Int :=
  if b then 1 else 0

/-- A condition holds for any non-zero word, a negative one included (R130, R131). -/
def holdsTrue (c : Int) : Bool :=
  c != 0

/-- Only the word 0 is false (R130, R132). -/
def holdsFalse (c : Int) : Bool :=
  c == 0

/-- The exact result of ADD or MULTIPLY, or `WordOverflow` where a finite word cannot hold it (R111, R112, R116). -/
def narrow (cfg : Config) (r : Int) : Except Trap Int :=
  if cfg.inRange r then .ok r else .error ⟨.wordOverflow, none⟩

/-- `r <- a + b` (R111). -/
def addWords (cfg : Config) (a b : Int) : Except Trap Int :=
  narrow cfg (a + b)

/-- `r <- a * b` (R112). -/
def multiplyWords (cfg : Config) (a b : Int) : Except Trap Int :=
  narrow cfg (a * b)

/-- `r <- 1 if a < b else 0`, in the signed order (R113). -/
def lessThanWords (a b : Int) : Except Trap Int :=
  .ok (truthWord (decide (a < b)))

/-- `r <- 1 if a = b else 0` (R114). -/
def equalsWords (a b : Int) : Except Trap Int :=
  .ok (truthWord (decide (a = b)))

end Sys2Proof.Machine
end

