-- ==== Sys2Proof/Machine/Operands.lean ====
section
/-! DEFINITION. The operand forms: a source by its mode, a destination always an address (steps 4 and 5 of R103). -/

namespace Sys2Proof.Machine

/-- `operand(i)` of R87: POSITION dereferences the literal, IMMEDIATE is the literal. -/
def operand (m : Memory) (mode : Mode) (lit : Int) : Except Trap Int :=
  match mode with
  | .position => memRead m lit
  | .immediate => .ok lit

/-- `destination(i)` of R88: the literal as an address, checked, whatever the mode digit. -/
def destination (m : Memory) (lit : Int) : Except Trap Nat :=
  checkAddress m lit

/-- The operands of an instruction with two sources, in the order of their numbers (step 4 of R103, R183). -/
def twoSources (m : Memory) (ms : Modes) (lit1 lit2 : Int) : Except Trap (Int × Int) :=
  match operand m ms.mode1 lit1 with
  | .error t => .error t
  | .ok a =>
    match operand m ms.mode2 lit2 with
    | .error t => .error t
    | .ok b => .ok (a, b)

/-- The operands of ADD, MULTIPLY, LESS-THAN and EQUALS: both sources, then the destination (steps 4 and 5 of R103,
R183). -/
def twoSourcesAndDestination (m : Memory) (ms : Modes) (lit1 lit2 lit3 : Int) : Except Trap (Int × Int × Nat) :=
  match twoSources m ms lit1 lit2 with
  | .error t => .error t
  | .ok (a, b) =>
    match destination m lit3 with
    | .error t => .error t
    | .ok d => .ok (a, b, d)

end Sys2Proof.Machine
end

