-- ==== Sys2Proof/Machine/Arith.lean ====
section
/-! DEFINITION. ADD, MULTIPLY, LESS-THAN and EQUALS (R110 to R116). -/

namespace Sys2Proof.Machine

/-- What the four share (R110): a function of the two sources is written to the destination and `ip` advances by 4,
or the first fault met is taken. -/
def writeResult (f : Int → Int → Except Trap Int) (ms : Modes) (lit1 lit2 lit3 : Int) (s : State) : Outcome :=
  match twoSourcesAndDestination s.mem ms lit1 lit2 lit3 with
  | .error t => .next (s.raise t)
  | .ok (a, b, d) =>
    match f a b with
    | .error t => .next (s.raise t)
    | .ok r => .next ((s.storeWord d r).completeAt (s.ip + 4))

/-- ADD, opcode 1 (R111). -/
def execAdd (ms : Modes) (lit1 lit2 lit3 : Int) (s : State) : Outcome :=
  writeResult (addWords s.cfg) ms lit1 lit2 lit3 s

/-- MULTIPLY, opcode 2 (R112). -/
def execMultiply (ms : Modes) (lit1 lit2 lit3 : Int) (s : State) : Outcome :=
  writeResult (multiplyWords s.cfg) ms lit1 lit2 lit3 s

/-- LESS-THAN, opcode 7 (R113). -/
def execLessThan (ms : Modes) (lit1 lit2 lit3 : Int) (s : State) : Outcome :=
  writeResult lessThanWords ms lit1 lit2 lit3 s

/-- EQUALS, opcode 8 (R114). -/
def execEquals (ms : Modes) (lit1 lit2 lit3 : Int) (s : State) : Outcome :=
  writeResult equalsWords ms lit1 lit2 lit3 s

end Sys2Proof.Machine
end

