-- ==== Sys2Proof/Machine/Control.lean ====
section
/-! DEFINITION. JUMP-IF-TRUE, JUMP-IF-FALSE and HALT (R130 to R136). -/

namespace Sys2Proof.Machine

/-- What the two jumps share (R130): both operands are read, taken or not; `ip` becomes the target when the
condition passes the test, else it advances by 3. The target is not checked (R134). -/
def jumpWhen (test : Int → Bool) (ms : Modes) (lit1 lit2 : Int) (s : State) : Outcome :=
  match twoSources s.mem ms lit1 lit2 with
  | .error t => .next (s.raise t)
  | .ok (c, t) => .next (s.completeAt (if test c then t else s.ip + 3))

/-- JUMP-IF-TRUE, opcode 5 (R131). -/
def execJumpIfTrue (ms : Modes) (lit1 lit2 : Int) (s : State) : Outcome :=
  jumpWhen holdsTrue ms lit1 lit2 s

/-- JUMP-IF-FALSE, opcode 6 (R132). -/
def execJumpIfFalse (ms : Modes) (lit1 lit2 : Int) (s : State) : Outcome :=
  jumpWhen holdsFalse ms lit1 lit2 s

/-- HALT, opcode 99 (R133). Its three mode digits are ignored (R89). -/
def execHalt (_ms : Modes) (s : State) : Outcome :=
  .next s.haltNow

end Sys2Proof.Machine
end

