-- ==== Sys2Proof/Machine/Io.lean ====
section
/-! DEFINITION. INPUT and OUTPUT (R150 to R159). -/

namespace Sys2Proof.Machine

/-- INPUT, opcode 3 (R150): the destination is checked before the channel is looked at; no channel wired is
`StarvedInput` (R153); an empty one blocks (R152); else the oldest value is taken and written. -/
def execInput (_ms : Modes) (lit1 : Int) (s : State) : Outcome :=
  match destination s.mem lit1 with
  | .error t => .next (s.raise t)
  | .ok d =>
    match s.inPort with
    | none => .next (s.raise ⟨.starvedInput, none⟩)
    | some c =>
      match chanGet s.chans c with
      | none => .next s.blockOnInput
      | some (v, cs) => .next (((s.storeWord d v).setChans cs).completeAt (s.ip + 2))

/-- OUTPUT, opcode 4 (R151): the value goes to the output channel where one is wired, and to `outLog` always
(R154). It never blocks; a full channel of a finite build is `ChannelOverflow` (R159). -/
def execOutput (ms : Modes) (lit1 : Int) (s : State) : Outcome :=
  match operand s.mem ms.mode1 lit1 with
  | .error t => .next (s.raise t)
  | .ok v =>
    match s.outPort with
    | none => .next ((s.logOutput v).completeAt (s.ip + 2))
    | some c =>
      if chanFull s.cfg s.chans c then .next (s.raise ⟨.channelOverflow, none⟩)
      else .next (((s.setChans (chanPut s.chans c v)).logOutput v).completeAt (s.ip + 2))

end Sys2Proof.Machine
end

