-- ==== Sys2Proof/Syntax.lean ====
section
/-! DEFINITION. The instructions: one constructor per row of spec/opcode_table.json. -/

namespace Sys2Proof

/-- A decoded instruction: the three modes of its instruction word and the literals `lit[1]` … `lit[n]` of its
parameter words (R80, R85, R86). All three modes are kept, the ignored ones too, so that no digit of an
instruction word is dropped by decoding. -/
inductive Instr where
  | add (ms : Modes) (lit1 lit2 lit3 : Int)
  | multiply (ms : Modes) (lit1 lit2 lit3 : Int)
  | input (ms : Modes) (lit1 : Int)
  | output (ms : Modes) (lit1 : Int)
  | jumpIfTrue (ms : Modes) (lit1 lit2 : Int)
  | jumpIfFalse (ms : Modes) (lit1 lit2 : Int)
  | lessThan (ms : Modes) (lit1 lit2 lit3 : Int)
  | equals (ms : Modes) (lit1 lit2 lit3 : Int)
  | halt (ms : Modes)
  deriving DecidableEq, Repr

/-- The operation an instruction performs (R82). -/
def Instr.opcode : Instr → Opcode
  | .add _ _ _ _ => .add
  | .multiply _ _ _ _ => .multiply
  | .input _ _ => .input
  | .output _ _ => .output
  | .jumpIfTrue _ _ _ => .jumpIfTrue
  | .jumpIfFalse _ _ _ => .jumpIfFalse
  | .lessThan _ _ _ _ => .lessThan
  | .equals _ _ _ _ => .equals
  | .halt _ => .halt

/-- The three modes of the instruction word (R86). -/
def Instr.modes : Instr → Modes
  | .add ms _ _ _ => ms
  | .multiply ms _ _ _ => ms
  | .input ms _ => ms
  | .output ms _ => ms
  | .jumpIfTrue ms _ _ => ms
  | .jumpIfFalse ms _ _ => ms
  | .lessThan ms _ _ _ => ms
  | .equals ms _ _ _ => ms
  | .halt ms => ms

/-- The literals of the parameter words, in order (R80). -/
def Instr.lits : Instr → List Int
  | .add _ a b d => [a, b, d]
  | .multiply _ a b d => [a, b, d]
  | .input _ d => [d]
  | .output _ a => [a]
  | .jumpIfTrue _ c t => [c, t]
  | .jumpIfFalse _ c t => [c, t]
  | .lessThan _ a b d => [a, b, d]
  | .equals _ a b d => [a, b, d]
  | .halt _ => []

end Sys2Proof
end

