-- ==== Sys2Proof/Machine/Dispatch.lean ====
section
/-! DEFINITION. The dispatch table from an instruction to its meaning (steps 4 to 7 of R103, R105). -/

namespace Sys2Proof.Machine

/-- Steps 4 to 7 of R103 for an instruction that steps 1 to 3 have fetched (R105). -/
def exec (i : Instr) (s : State) : Host.Outcome State Fault Refusal :=
  match i with
  | .add ms lit1 lit2 lit3 => Sys2Proof.Machine.execAdd ms lit1 lit2 lit3 s
  | .multiply ms lit1 lit2 lit3 => Sys2Proof.Machine.execMultiply ms lit1 lit2 lit3 s
  | .input ms lit1 => Sys2Proof.Machine.execInput ms lit1 s
  | .output ms lit1 => Sys2Proof.Machine.execOutput ms lit1 s
  | .jumpIfTrue ms lit1 lit2 => Sys2Proof.Machine.execJumpIfTrue ms lit1 lit2 s
  | .jumpIfFalse ms lit1 lit2 => Sys2Proof.Machine.execJumpIfFalse ms lit1 lit2 s
  | .lessThan ms lit1 lit2 lit3 => Sys2Proof.Machine.execLessThan ms lit1 lit2 lit3 s
  | .equals ms lit1 lit2 lit3 => Sys2Proof.Machine.execEquals ms lit1 lit2 lit3 s
  | .halt ms => Sys2Proof.Machine.execHalt ms s

end Sys2Proof.Machine
end

