-- ==== Sys2Proof/WellFormed.lean ====
section
/-! DEFINITION. Which instructions a build can hold in its memory. -/

namespace Sys2Proof

/-- An instruction is well formed on a build when every literal is a word of that build. Under `UNBOUNDED` words
every instruction is: "any integer is a legal literal" (R80). The instruction word itself is at most 11199, inside
every admitted range, and a mode is one of two by its type. -/
def Instr.wf (cfg : Config) (i : Instr) : Bool :=
  i.lits.all cfg.inRange

end Sys2Proof
end

