-- ==== Sys2Proof/Decode.lean ====
section
/-! DEFINITION. The decimal decoder (R80 to R97), total on every list of words and refusing by name, and after it
the encoder. -/

namespace Sys2Proof

/-- Why a list of words is no instruction. The first four are the fault MalformedInstruction (R90 to R93);
`truncated` is a list too short for the parameters its opcode takes (R96). -/
inductive DecodeError where
  | negativeWord
  | highDigits
  | unknownOpcode
  | badMode
  | truncated
  deriving DecidableEq, Repr

/-- `digit(w, i)` of R7: the decimal digit of weight `10^i`. -/
def digit (w i : Nat) : Nat :=
  w / 10 ^ i % 10

/-- The value of `w mod 100` that selects an operation (R82). -/
def Opcode.code : Opcode → Nat
  | .add => 1
  | .multiply => 2
  | .input => 3
  | .output => 4
  | .jumpIfTrue => 5
  | .jumpIfFalse => 6
  | .lessThan => 7
  | .equals => 8
  | .halt => 99

/-- The parameter count `n` of an operation (R85). -/
def Opcode.nparams : Opcode → Nat
  | .add => 3
  | .multiply => 3
  | .input => 1
  | .output => 1
  | .jumpIfTrue => 2
  | .jumpIfFalse => 2
  | .lessThan => 3
  | .equals => 3
  | .halt => 0

/-- The operation `w mod 100` selects; every other value is illegal (R82, R90, R94). -/
def opcodeOf : Nat → Option Opcode
  | 1 => some .add
  | 2 => some .multiply
  | 3 => some .input
  | 4 => some .output
  | 5 => some .jumpIfTrue
  | 6 => some .jumpIfFalse
  | 7 => some .lessThan
  | 8 => some .equals
  | 99 => some .halt
  | _ => none

/-- The mode a digit selects; 2 to 9 select none (R83, R92). -/
def modeOf : Nat → Option Mode
  | 0 => some .position
  | 1 => some .immediate
  | _ => none

/-- `decode(w)` of R86, its checks in the rule's order. It reads `w` alone. -/
def decodeWord (w : Int) : Except DecodeError (Opcode × Modes) :=
  if w < 0 then .error .negativeWord
  else if 99999 < w then .error .highDigits
  else
    match opcodeOf (w.toNat % 100) with
    | none => .error .unknownOpcode
    | some op =>
      match modeOf (digit w.toNat 2), modeOf (digit w.toNat 3), modeOf (digit w.toNat 4) with
      | some m1, some m2, some m3 => .ok (op, ⟨m1, m2, m3⟩)
      | _, _, _ => .error .badMode

/-- The instruction an operation, its modes and the words after its instruction word make, with the words it does
not take (R80, R85, R95). -/
def assembleInstr : Opcode → Modes → List Int → Except DecodeError (Instr × List Int)
  | .add, ms, a :: b :: d :: rest => .ok (.add ms a b d, rest)
  | .multiply, ms, a :: b :: d :: rest => .ok (.multiply ms a b d, rest)
  | .input, ms, d :: rest => .ok (.input ms d, rest)
  | .output, ms, a :: rest => .ok (.output ms a, rest)
  | .jumpIfTrue, ms, c :: t :: rest => .ok (.jumpIfTrue ms c t, rest)
  | .jumpIfFalse, ms, c :: t :: rest => .ok (.jumpIfFalse ms c t, rest)
  | .lessThan, ms, a :: b :: d :: rest => .ok (.lessThan ms a b d, rest)
  | .equals, ms, a :: b :: d :: rest => .ok (.equals ms a b d, rest)
  | .halt, ms, rest => .ok (.halt ms, rest)
  | _, _, _ => .error .truncated

/-- The instruction at the head of a list of words, and the words after it (R80, R86). -/
def decode : List Int → Except DecodeError (Instr × List Int)
  | [] => .error .truncated
  | w :: ps =>
    match decodeWord w with
    | .error e => .error e
    | .ok (op, ms) => assembleInstr op ms ps

/-- The digit that selects a mode (R83). -/
def Mode.digit : Mode → Nat
  | .position => 0
  | .immediate => 1

/-- The instruction word `op + 100*m1 + 1000*m2 + 10000*m3` (R97). -/
def instrWord (op : Opcode) (ms : Modes) : Int :=
  ((op.code + 100 * ms.mode1.digit + 1000 * ms.mode2.digit + 10000 * ms.mode3.digit : Nat) : Int)

/-- The words of an instruction: its instruction word and then its literals (R80, R81, R97). -/
def encode (i : Instr) : List Int :=
  instrWord i.opcode i.modes :: i.lits

/-- The length of an instruction in words, `1 + n` (R80, R85). -/
def Instr.length (i : Instr) : Nat :=
  1 + i.opcode.nparams

/-- The instruction the decoder reads from an instruction word of integer value `w`, its parameter words zero.
A word is one unbounded integer (R53), so every bit of `w` lies in the first word and the number of bits the table
gives a row plays no part (log entry 14). -/
def decodeTableWord (_nbits w : Nat) : Option Instr :=
  match decode [(w : Int), 0, 0, 0] with
  | .ok (i, _) => some i
  | .error _ => none

end Sys2Proof
end

