-- ==== Sys2Proof/Machine/Fetch.lean ====
section
/-! DEFINITION. Fetching an instruction: steps 1 to 3 of R103, and laying an instruction's words where the next step
fetches them. -/

namespace Sys2Proof.Machine

/-- The trap of a word that is no legal instruction word (R90 to R93, R180). -/
def malformed : Trap where
  kind := .malformedInstruction
  addr := none

/-- Parameter fetch, step 3 of R103: `n` words from address `a` on, the first one out of bounds reported (R96). -/
def fetchParams (m : Memory) : Nat → Int → Except Trap (List Int)
  | 0, _ => .ok []
  | n + 1, a =>
    match memRead m a with
    | .error t => .error t
    | .ok w =>
      match fetchParams m n (a + 1) with
      | .error t => .error t
      | .ok ws => .ok (w :: ws)

/-- The instruction at address `p`: the instruction word is read and decoded, then its parameter words are read
(steps 1 to 3 of R103). -/
def fetchInstr (m : Memory) (p : Int) : Except Trap Instr :=
  match memRead m p with
  | .error t => .error t
  | .ok w =>
    match decodeWord w with
    | .error _ => .error malformed
    | .ok (op, _) =>
      match fetchParams m op.nparams (p + 1) with
      | .error t => .error t
      | .ok ps =>
        match decode (w :: ps) with
        | .error _ => .error malformed
        | .ok (i, _) => .ok i

/-- The words of memory from address `p` on, at most `n` of them, up to the end of memory. -/
def wordsFrom (m : Memory) : Nat → Int → List Int
  | 0, _ => []
  | n + 1, p =>
    match memRead m p with
    | .error _ => []
    | .ok w => w :: wordsFrom m n (p + 1)

/-- The words of the longest instruction (R80). -/
def longestInstr : Nat := 4

/-- Words laid in memory from address `p` on; memory grows to hold them. It stands for the host's load and is no
operation of the machine, whose `L` never changes (R22). -/
def Memory.layWords (m : Memory) (p : Nat) : List Int → Memory
  | [] => m
  | w :: ws => (Memory.store { m with size := max m.size (p + 1) } p w).layWords (p + 1) ws

/-- The state with the instruction word `w` and zero parameter words laid at `ip`, and the core started, so that the
very next step runs it (log entry 13). An `ip` below 0, where no word can lie, is moved to 0. -/
def State.layInstr (s : State) (w : Nat) : State :=
  { s with
    mem := s.mem.layWords s.ip.toNat [(w : Int), 0, 0, 0]
    ip := s.ip.toNat
    status := .running
    finished := false
    fault := none }

end Sys2Proof.Machine
end

