-- ==== Sys2Proof/Machine/Step.lean ====
section
/-! DEFINITION. One step of a core (R103, R104, R107). -/

namespace Sys2Proof.Machine

/-- One `step()` of the control port: a core with an enabled step executes the instruction at `ip` (R103); one with
none changes nothing (R104, R107). -/
def step (s : State) : Host.Outcome State Fault Refusal :=
  if s.enabled then
    match fetchInstr s.mem s.ip with
    | .error t => .next (s.raise t)
    | .ok i => exec i s
  else .next s

/-- The state with one instruction of the opcode table placed where the next step fetches, and the core started
(log entries 13 and 14). The number of bits plays no part: the instruction word is one unbounded integer. -/
def State.withFetchWord (s : State) (_nbits w : Nat) : State :=
  s.layInstr w

end Sys2Proof.Machine
end

