-- ==== Sys2Proof/Machine/Assembly.lean ====
section
/-! DEFINITION. The spec's assembly language, its pseudo-instructions and its labels (R100, R101). -/

namespace Sys2Proof.Machine

/-- What an operand stands for: an integer, or a label, which stands for the address it names (R100). -/
inductive AsmValue where
  | int (v : Int)
  | label (name : String)
  deriving DecidableEq, Repr

/-- A source operand: `[a]` for POSITION, `#v` for IMMEDIATE (R100). -/
inductive AsmSource where
  | pos (a : AsmValue)
  | imm (v : AsmValue)
  deriving DecidableEq, Repr

/-- A line of assembly: an instruction, data, a label, or one of the pseudo-instructions JMP, MOV and NOP. -/
inductive AsmLine where
  | add (s1 s2 : AsmSource) (d : AsmValue)
  | mul (s1 s2 : AsmSource) (d : AsmValue)
  | input (d : AsmValue)
  | output (s1 : AsmSource)
  | jt (s1 s2 : AsmSource)
  | jf (s1 s2 : AsmSource)
  | lt (s1 s2 : AsmSource) (d : AsmValue)
  | eq (s1 s2 : AsmSource) (d : AsmValue)
  | halt
  | word (vs : List AsmValue)
  | label (name : String)
  | jmp (t : AsmSource)
  | mov (s : AsmSource) (d : AsmValue)
  | nop
  deriving DecidableEq, Repr

/-- The mode digit of a source operand (R100). -/
def AsmSource.mode : AsmSource → Mode
  | .pos _ => .position
  | .imm _ => .immediate

/-- The literal of a source operand (R100). -/
def AsmSource.value : AsmSource → AsmValue
  | .pos a => a
  | .imm v => v

/-- A pseudo-instruction's expansion (R101): `JMP t` is `JT #1, t`; `MOV s, [d]` is `ADD s, #0, [d]`; `NOP` is
`JT #0, #0`. Every other line stands for itself. -/
def AsmLine.expand : AsmLine → AsmLine
  | .jmp t => .jt (.imm (.int 1)) t
  | .mov s d => .add s (.imm (.int 0)) d
  | .nop => .jt (.imm (.int 0)) (.imm (.int 0))
  | line => line

/-- The words of a line, labels still standing in it; a destination assembles with mode digit 0 (R100). -/
def AsmLine.layout (line : AsmLine) : List AsmValue :=
  match line.expand with
  | .add s1 s2 d => [.int (instrWord .add ⟨s1.mode, s2.mode, .position⟩), s1.value, s2.value, d]
  | .mul s1 s2 d => [.int (instrWord .multiply ⟨s1.mode, s2.mode, .position⟩), s1.value, s2.value, d]
  | .input d => [.int (instrWord .input ⟨.position, .position, .position⟩), d]
  | .output s1 => [.int (instrWord .output ⟨s1.mode, .position, .position⟩), s1.value]
  | .jt s1 s2 => [.int (instrWord .jumpIfTrue ⟨s1.mode, s2.mode, .position⟩), s1.value, s2.value]
  | .jf s1 s2 => [.int (instrWord .jumpIfFalse ⟨s1.mode, s2.mode, .position⟩), s1.value, s2.value]
  | .lt s1 s2 d => [.int (instrWord .lessThan ⟨s1.mode, s2.mode, .position⟩), s1.value, s2.value, d]
  | .eq s1 s2 d => [.int (instrWord .equals ⟨s1.mode, s2.mode, .position⟩), s1.value, s2.value, d]
  | .halt => [.int (instrWord .halt ⟨.position, .position, .position⟩)]
  | .word vs => vs
  | .label _ => []
  | .jmp _ => []
  | .mov _ _ => []
  | .nop => []

/-- The addresses a label names: that of the next word after each line that gives it (R100). -/
def labelAddresses (name : String) : Nat → List AsmLine → List Nat
  | _, [] => []
  | a, line :: rest =>
    if line = .label name then a :: labelAddresses name a rest
    else labelAddresses name (a + line.layout.length) rest

/-- A value with its label replaced by the address it names. A label that no line gives, or more than one, names
none (log entry 10). -/
def AsmValue.resolve (program : List AsmLine) : AsmValue → Option Int
  | .int v => some v
  | .label name =>
    match labelAddresses name 0 program with
    | [a] => some (a : Int)
    | _ => none

/-- The words of an assembly program, none where a label names no address (R100). -/
def assemble (program : List AsmLine) : Option (List Int) :=
  (program.flatMap AsmLine.layout).mapM (AsmValue.resolve program)

/-! ### The written form (R100) -/

/-- A value as it is written. -/
def AsmValue.text : AsmValue → String
  | .int v => v.repr
  | .label name => name

/-- A destination as it is written: `[d]`. -/
def AsmValue.destText (d : AsmValue) : String :=
  "[" ++ d.text ++ "]"

/-- A source as it is written: `[a]` or `#v`. -/
def AsmSource.text : AsmSource → String
  | .pos a => a.destText
  | .imm v => "#" ++ v.text

/-- A line as it is written. -/
def AsmLine.text : AsmLine → String
  | .add s1 s2 d => "ADD " ++ s1.text ++ ", " ++ s2.text ++ ", " ++ d.destText
  | .mul s1 s2 d => "MUL " ++ s1.text ++ ", " ++ s2.text ++ ", " ++ d.destText
  | .input d => "IN " ++ d.destText
  | .output s1 => "OUT " ++ s1.text
  | .jt s1 s2 => "JT " ++ s1.text ++ ", " ++ s2.text
  | .jf s1 s2 => "JF " ++ s1.text ++ ", " ++ s2.text
  | .lt s1 s2 d => "LT " ++ s1.text ++ ", " ++ s2.text ++ ", " ++ d.destText
  | .eq s1 s2 d => "EQ " ++ s1.text ++ ", " ++ s2.text ++ ", " ++ d.destText
  | .halt => "HALT"
  | .word vs => ".word " ++ ", ".intercalate (vs.map AsmValue.text)
  | .label name => name ++ ":"
  | .jmp t => "JMP " ++ t.text
  | .mov s d => "MOV " ++ s.text ++ ", " ++ d.destText
  | .nop => "NOP"

end Sys2Proof.Machine
end

