-- ==== Sys2Proof/Machine/ControlPort.lean ====
section
/-! DEFINITION. The host's transactions on one core: its control port and its status port (R33, R34, R107, R202). -/

namespace Sys2Proof.Machine

/-- Why the host refuses a transaction. The hardware takes no part in it: nothing changes. Each is the treatment
`refuse` of spec/93_implementation_defined.md, or a move the spec says the host does not have (R204). -/
inductive HostRefusal where
  /-- a program longer than `MEM_CAPACITY` (R6, D3) -/
  | programTooLong
  /-- a program word, phase setting or seed outside the word range (R99, R193, D34) -/
  | wordOutOfRange
  /-- a text that is no comma-separated list of integers (R99, D23) -/
  | notAProgramText
  /-- an index that names no core -/
  | noSuchCore
  /-- wiring a core that has been started (R27) -/
  | alreadyStarted
  /-- a second consumer or a second producer on one channel (R31, D35) -/
  | channelTaken
  /-- a put by the host after a core has started (R193, R204) -/
  | seedAfterStart
  /-- a put by the host onto a full channel of a finite build (R159) -/
  | seedDoesNotFit
  /-- a network under a `CHANNEL_DEPTH` below 2 (R193) -/
  | channelTooShallow
  /-- a list of phase settings with a repeated value (R193, D31) -/
  | repeatedPhase
  /-- a network of no cores; `K >= 1` (R6, R192) -/
  | noCores
  /-- destroying a core of a network that runs (R204) -/
  | stillRunning
  deriving DecidableEq, Repr

/-- A program longer than `MEM_CAPACITY` is refused at load (R6). -/
def fitsCapacity (cfg : Config) (ws : List Int) : Bool :=
  match cfg.memCapacity with
  | none => true
  | some cap => decide (ws.length ≤ cap)

/-- `new(program)`: a core in `Ready` with its own copy of the program (R191, R230). -/
def newCore (cfg : Config) (program : List Int) : Except HostRefusal CoreState :=
  if !fitsCapacity cfg program then .error .programTooLong
  else if !program.all cfg.inRange then .error .wordOutOfRange
  else .ok (CoreState.fresh (Memory.ofWords program))

/-- `wire(in, out)` on a core that has not started (R27, R33). -/
def CoreState.wire (c : CoreState) (inPort outPort : Option Nat) : Except HostRefusal CoreState :=
  if c.status = .ready then .ok { c with inPort := inPort, outPort := outPort } else .error .alreadyStarted

/-- `start`: `Ready` becomes `Running` and nothing else changes (R24, R194). -/
def CoreState.start (c : CoreState) : CoreState :=
  if c.status = .ready then { c with status := .running } else c

/-- The state after one `step()` (R107). `step` answers a next state in every state; the other two arms are never
taken. -/
def State.advance (s : State) : State :=
  match step s with
  | .next t => t
  | .fault _ => s
  | .refused _ => s

/-- `step()`: at most one step, and the resulting status (R107, R202). -/
def State.stepPort (s : State) : State × Status :=
  (s.advance, s.advance.status)

/-- At most `n` steps of `run()`: the step is repeated while it is enabled (R107). With no other core to put a
value, a run that blocks stays blocked. -/
def State.runFor : Nat → State → State
  | 0, s => s
  | n + 1, s => if s.enabled then State.runFor n s.advance else s

/-- `run()` returns when the core is `Halted` or `Faulted` (R107). -/
def State.hasEnded (s : State) : Bool :=
  decide (s.status = .halted) || decide (s.status = .faulted)

/-- `finalValue`: the last value the core output, none if it output none (R28). -/
def CoreState.finalValue (c : CoreState) : Option Int :=
  c.outLog.getLast?

/-- What `run()` returns to the host: `(finalValue, faulted)` (R28, R34). -/
def CoreState.runResult (c : CoreState) : Option Int × Bool :=
  (c.finalValue, decide (c.status = .faulted))

/-- What the host sees of a run's end: the status, the outputs, the memory, and the fault record of a faulted core
(R34). -/
def CoreState.hostView (c : CoreState) : Status × List Int × List Int × Option FaultRecord :=
  (c.status, c.outLog, c.mem.words, c.fault)

/-- The code of a fault kind (R180). -/
def FaultKind.code : FaultKind → Nat
  | .malformedInstruction => 1
  | .outOfBoundsAccess => 2
  | .starvedInput => 3
  | .wordOverflow => 4
  | .channelOverflow => 5

end Sys2Proof.Machine
end

