-- ==== Sys2Proof/Machine/Loader.lean ====
section
/-! DEFINITION. The loader's reading of program text (R98, R99). -/

namespace Sys2Proof.Machine

/-- The lines joined with nothing between them: every line terminator removed (R99). A terminator is a line feed, or
a carriage return and a line feed (log entry 9). -/
def joinLines : List Char → List Char
  | [] => []
  | '\r' :: '\n' :: rest => joinLines rest
  | '\n' :: rest => joinLines rest
  | c :: rest => c :: joinLines rest

/-- The text split at every comma (R99). -/
def splitCommas : List Char → List (List Char)
  | [] => [[]]
  | c :: rest =>
    if c = ',' then [] :: splitCommas rest
    else
      match splitCommas rest with
      | [] => [[c]]
      | field :: fields => (c :: field) :: fields

/-- A space or a tab (R99). -/
def isBlank (c : Char) : Bool :=
  c == ' ' || c == '\t'

/-- A field with spaces and tabs removed from both ends (R99). -/
def trimBlanks (cs : List Char) : List Char :=
  ((cs.dropWhile isBlank).reverse.dropWhile isBlank).reverse

/-- The value of a decimal digit. -/
def digitValue (c : Char) : Option Nat :=
  if '0' ≤ c ∧ c ≤ '9' then some (c.toNat - '0'.toNat) else none

/-- The base-10 value of a string of digits read after a prefix of value `acc`. -/
def digitsFrom (acc : Nat) : List Char → Option Nat
  | [] => some acc
  | c :: rest =>
    match digitValue c with
    | none => none
    | some d => digitsFrom (10 * acc + d) rest

/-- `[0-9]+`: one digit or more (R99). -/
def digitsValue : List Char → Option Nat
  | [] => none
  | c :: rest => digitsFrom 0 (c :: rest)

/-- A field: `-?[0-9]+` with blanks around it, read as a base-10 integer; none for anything else (R99). -/
def fieldValue (cs : List Char) : Option Int :=
  match trimBlanks cs with
  | '-' :: ds => (digitsValue ds).map (fun n => -(n : Int))
  | ds => (digitsValue ds).map (fun n => (n : Int))

/-- Every field's value, none if some field has none. -/
def fieldValues : List (List Char) → Option (List Int)
  | [] => some []
  | f :: fs =>
    match fieldValue f, fieldValues fs with
    | some v, some vs => some (v :: vs)
    | _, _ => none

/-- The program a text stands for, or the loader's refusal (R98, R99). A text with no integer has an empty field. -/
def parseProgram (cfg : Config) (text : List Char) : Except HostRefusal (List Int) :=
  match fieldValues (splitCommas (joinLines text)) with
  | none => .error .notAProgramText
  | some ws => if ws.all cfg.inRange then .ok ws else .error .wordOutOfRange

/-- A core built from program text (R98, R230). -/
def loadText (cfg : Config) (text : List Char) : Except HostRefusal CoreState :=
  match parseProgram cfg text with
  | .error e => .error e
  | .ok ws => newCore cfg ws

end Sys2Proof.Machine
end

