-- ==== Sys2Proof/Machine/Network.lean ====
section
/-! DEFINITION. Several cores that share channels, and the host that builds, wires, seeds, starts and reads them
(R191 to R204). The network is outside the block (R4); a step of it is a step of one of its cores. -/

namespace Sys2Proof.Machine

/-- The three ways a network run ends (R196). -/
inductive RunEnd where
  | complete
  | faulted
  | deadlocked
  deriving DecidableEq, Repr

/-- How a run ended and what its result was, which the host keeps when it destroys the cores (R186, R196, R197). -/
structure RunOutcome where
  how : RunEnd
  result : Option Int
  deriving DecidableEq, Repr

/-- The cores by the host's index, none for a core that has been destroyed (R191), the channels they share, and the
parameters of the build. The last two fields are what the host remembers of its one run (log entry 12); the fields of
the cores that are there say the rest. -/
structure Network where
  cfg : Config
  cores : List (Option CoreState)
  chans : Channels
  /-- some core had left `Ready` before the last move (R193, R194) -/
  hasStarted : Bool
  /-- how the run had ended before the last move, none if it had not (R196) -/
  ended : Option RunOutcome
  deriving DecidableEq, Repr

/-- A host with no core yet. -/
def Network.empty (cfg : Config) : Network where
  cfg := cfg
  cores := []
  chans := []
  hasStarted := false
  ended := none

/-- Core `i`, none if there is none or it has been destroyed. -/
def Network.coreAt (n : Network) (i : Nat) : Option CoreState :=
  (n.cores[i]?).join

/-- The network with core `i` replaced. -/
def Network.setCore (n : Network) (i : Nat) (c : CoreState) : Network :=
  { n with cores := n.cores.set i (some c) }

/-- What core `c` of the network steps on: its own state and the channels (R106). -/
def Network.viewOf (n : Network) (c : CoreState) : State where
  toCoreState := c
  cfg := n.cfg
  chans := n.chans

/-- Core `i` has an enabled step (R104). -/
def Network.enabledAt (n : Network) (i : Nat) : Bool :=
  match n.coreAt i with
  | none => false
  | some c => (n.viewOf c).enabled

/-- A network step: one step of core `i` (R195). A core with no enabled step changes nothing. -/
def Network.stepCore (n : Network) (i : Nat) : Network :=
  match n.coreAt i with
  | none => n
  | some c =>
    { n.setCore i (n.viewOf c).advance.toCoreState with chans := (n.viewOf c).advance.chans }

/-! ### The end of a run -/

/-- Some core of the network has started, one that has been destroyed since included, so that seeding stays refused for
good: "The host puts nothing onto any channel after the first core starts" (R193). -/
def Network.started (n : Network) : Bool :=
  n.hasStarted || n.cores.any (fun o => o.any (fun c => decide (c.status ≠ .ready)))

/-- Every core is `Halted` (R196). -/
def Network.allHalted (n : Network) : Bool :=
  n.cores.all (fun o => o.all (fun c => decide (c.status = .halted)))

/-- Some core is `Faulted` (R196). -/
def Network.someFaulted (n : Network) : Bool :=
  n.cores.any (fun o => o.any (fun c => decide (c.status = .faulted)))

/-- Some core has an enabled step. -/
def Network.someEnabled (n : Network) : Bool :=
  (List.range n.cores.length).any n.enabledAt

/-- How the run of a started network ends in the states its cores are in, none while it goes on (R196). A deadlock is
seen here by the host of the model; no core detects it (R200). -/
def Network.endOfCores (n : Network) : Option RunEnd :=
  if !n.started then none
  else if n.someFaulted then some .faulted
  else if n.allHalted then some .complete
  else if n.someEnabled then none
  else some .deadlocked

/-- The last value that the last core output (R197). -/
def Network.lastOutput (n : Network) : Option Int :=
  (n.coreAt (n.cores.length - 1)).bind CoreState.finalValue

/-- How the run ended and its result, none while it goes on: a run ends once, in one of the three ways, and only a
complete run has a result (R196, R197). An end the host remembers is the end, whatever it has done with the cores
since (R186). -/
def Network.outcome (n : Network) : Option RunOutcome :=
  match n.ended with
  | some o => some o
  | none => n.endOfCores.map (fun e => ⟨e, if e = .complete then n.lastOutput else none⟩)

/-- How the run of the network has ended, none while it goes on (R196). -/
def Network.runEnd (n : Network) : Option RunEnd :=
  n.outcome.map RunOutcome.how

/-- The result of a complete run: the last value that the last core output; no other run has one, and neither has a
run whose last core never output (R196, R197). -/
def Network.result (n : Network) : Option Int :=
  n.outcome.bind RunOutcome.result

/-! ### Scheduling -/

/-- One choice of the scheduler; the run stops where it has ended (R195, R196). -/
def Network.choose (n : Network) (i : Nat) : Network :=
  if n.runEnd.isSome then n else n.stepCore i

/-- A schedule: the cores that take the next steps, in order, chosen freely (R195). -/
def Network.runSchedule (n : Network) : List Nat → Network
  | [] => n
  | i :: rest => (n.choose i).runSchedule rest

/-- One fair schedule: every core in turn, `rounds` times over. R201 says the choice does not matter. -/
def Network.runRounds (n : Network) : Nat → Network
  | 0 => n
  | r + 1 => (n.runSchedule (List.range n.cores.length)).runRounds r

/-! ### The host's moves (R204) -/

/-- The moves of the host; what is not here has no move in the model (R204). -/
inductive HostMove where
  | construct (program : List Int)
  | wire (i : Nat) (inPort outPort : Option Nat)
  | seed (c : Nat) (v : Int)
  | start
  | step (i : Nat)
  | destroy (i : Nat)
  deriving DecidableEq, Repr

/-- Channel `p` is not none and is `q`: the two ports name one channel. -/
def samePort (p q : Option Nat) : Bool :=
  p.isSome && p == q

/-- Some core other than `i` already consumes from `inPort` or produces onto `outPort` (R31). DESIGN CHOICE (log
entry 19): the cores counted are those that are there, so the channel of a destroyed core is free again. -/
def Network.portTaken (n : Network) (i : Nat) (inPort outPort : Option Nat) : Bool :=
  (List.range n.cores.length).any fun j =>
    j != i && (n.coreAt j).any fun c => samePort inPort c.inPort || samePort outPort c.outPort

/-- Every core started (R194). -/
def Network.startAll (n : Network) : Network :=
  { n with cores := n.cores.map (fun o => o.map CoreState.start) }

/-- The host remembers that the network has started and how its run has ended (R193, R196). -/
def Network.remember (n : Network) : Network :=
  { n with hasStarted := n.started, ended := n.outcome }

/-- What a move of the host does, or its refusal (R204). -/
def Network.move (n : Network) : HostMove → Except HostRefusal Network
  | .construct program =>
    match newCore n.cfg program with
    | .error e => .error e
    | .ok c => .ok { n with cores := n.cores ++ [some c] }
  | .wire i inPort outPort =>
    match n.coreAt i with
    | none => .error .noSuchCore
    | some c =>
      if n.portTaken i inPort outPort then .error .channelTaken
      else
        match c.wire inPort outPort with
        | .error e => .error e
        | .ok c' => .ok (n.setCore i c')
  | .seed c v =>
    if n.started then .error .seedAfterStart
    else if !n.cfg.inRange v then .error .wordOutOfRange
    else if chanFull n.cfg n.chans c then .error .seedDoesNotFit
    else .ok { n with chans := chanPut n.chans c v }
  | .start => .ok n.startAll
  | .step i => if (n.coreAt i).isSome then .ok (n.stepCore i) else .error .noSuchCore
  | .destroy i =>
    if n.started && n.runEnd.isNone then .error .stillRunning
    else if (n.coreAt i).isSome then .ok { n with cores := n.cores.set i none }
    else .error .noSuchCore

/-- One move of the host, or its refusal (R204): what has started and how a run has ended is remembered before the
move, so that no move, destroying a core least of all, undoes it. -/
def Network.hostMove (n : Network) (m : HostMove) : Except HostRefusal Network :=
  n.remember.move m

/-- The moves in order, up to the first refusal. -/
def Network.hostMoves (n : Network) : List HostMove → Except HostRefusal Network
  | [] => .ok n
  | m :: ms =>
    match n.hostMove m with
    | .error e => .error e
    | .ok n' => n'.hostMoves ms

/-! ### The amplifier network -/

/-- The channel core `i` of `k` outputs onto: the next core's, back to channel 0 in a ring, on to the sink `C[k]`
in a line (R192, C2). -/
def outChannel (feedback : Bool) (k i : Nat) : Nat :=
  if feedback then (i + 1) % k else i + 1

/-- Core `i` of a network of `k`, wired as R192 says. -/
def wiredCore (feedback : Bool) (k : Nat) (c : CoreState) (i : Nat) : CoreState :=
  { c with inPort := some i, outPort := some (outChannel feedback k i) }

/-- One value put onto each channel from `c` on. -/
def putFrom (cs : Channels) : Nat → List Int → Channels
  | _, [] => cs
  | c, v :: vs => putFrom (chanPut cs c v) (c + 1) vs

/-- Seeding: the phase setting of each core onto its channel, then the seed onto channel 0 (R193). -/
def seededChannels (phases : List Int) (seed : Int) : Channels :=
  chanPut (putFrom [] 0 phases) 0 seed

/-- A finite channel that cannot hold the two values of channel 0 (R193). -/
def tooShallow (cfg : Config) : Bool :=
  match cfg.channelDepth with
  | none => false
  | some depth => decide (depth < 2)

/-- The network of R191 to R193, constructed, wired and seeded, not started; or the host's refusal. -/
def buildNetwork (cfg : Config) (program phases : List Int) (feedback : Bool) : Except HostRefusal Network :=
  if phases.isEmpty then .error .noCores
  else if !decide phases.Nodup then .error .repeatedPhase
  else if tooShallow cfg then .error .channelTooShallow
  else if !(cfg.seed :: phases).all cfg.inRange then .error .wordOutOfRange
  else
    match newCore cfg program with
    | .error e => .error e
    | .ok c =>
      .ok { cfg := cfg
            cores := (List.range phases.length).map (fun i => some (wiredCore feedback phases.length c i))
            chans := seededChannels phases cfg.seed
            hasStarted := false
            ended := none }

/-! ### The search over phase settings (R198, host software) -/

/-- `x` put at every place of a list. -/
def everyPlace (x : Int) : List Int → List (List Int)
  | [] => [[x]]
  | y :: ys => (x :: y :: ys) :: (everyPlace x ys).map (fun l => y :: l)

/-- The orders of a list of phase settings. -/
def ordersOf : List Int → List (List Int)
  | [] => [[]]
  | x :: xs => (ordersOf xs).flatMap (everyPlace x)

/-- The result of the network with these phase settings, within `rounds` rounds of a fair schedule: none if the
host refuses it, if it ends without a result, or if it has not ended by then. The schedule is every core in turn (log
entries 8 and 20). -/
def resultWithin (rounds : Nat) (cfg : Config) (program : List Int) (feedback : Bool) (phases : List Int) : Option Int :=
  match buildNetwork cfg program phases feedback with
  | .error _ => none
  | .ok n => (n.startAll.runRounds rounds).result

/-- The larger of two results, where there is one. -/
def largerOf : Option Int → Option Int → Option Int
  | none, y => y
  | x, none => x
  | some x, some y => some (max x y)

/-- `maxSignal` over the runs that end within `rounds` rounds: the largest result of any order of the phase
settings, none if no run has one (R198). -/
def maxSignalWithin (rounds : Nat) (cfg : Config) (program phases : List Int) (feedback : Bool) : Option Int :=
  ((ordersOf phases).map (resultWithin rounds cfg program feedback)).foldr largerOf none

/-- The network with these phase settings completes on some schedule with result `r` (R195 to R197). DESIGN CHOICE (log
entry 20): under a finite `CHANNEL_DEPTH` another schedule may end with `ChannelOverflow` (R159), and the spec does not
say which run counts; here one that completes is enough. -/
def completesWith (cfg : Config) (program : List Int) (feedback : Bool) (phases : List Int) (r : Int) : Prop :=
  ∃ n schedule, buildNetwork cfg program phases feedback = .ok n ∧ (n.startAll.runSchedule schedule).result = some r

/-- `maxSignal(program, phaseSettingRange, feedback)` is `r`: some order of the phase settings completes with `r`,
and none completes with more (R198). Which order reaches it is not said (U11); which run of an order counts is log
entry 20. -/
def isMaxSignal (cfg : Config) (program phases : List Int) (feedback : Bool) (r : Int) : Prop :=
  (∃ order, order.Perm phases ∧ completesWith cfg program feedback order r) ∧
    ∀ order r', order.Perm phases → completesWith cfg program feedback order r' → r' ≤ r

end Sys2Proof.Machine
end

