-- ==== Sys2Proof/Safety.lean ====
section
/-! DEFINITION. What claims use: the invariant of a core, the legal transitions of its status, a safe step, and the
invariant of a network. -/

namespace Sys2Proof.Machine

/-- Every word a build holds is in its range (D34). -/
structure State.WordsInRange (s : State) : Prop where
  mem : ∀ e ∈ s.mem.cells, s.cfg.inRange e.2 = true
  chans : ∀ e ∈ s.chans, ∀ v ∈ e.2, s.cfg.inRange v = true
  outLog : ∀ v ∈ s.outLog, s.cfg.inRange v = true

/-- A fault record that fits the build: an address for `OutOfBoundsAccess` and for no other kind, outside memory
(R26, R181); the last two kinds only under a finite parameter (R180). -/
structure FaultRecord.Fits (r : FaultRecord) (s : State) : Prop where
  atIp : r.atIp = s.ip
  address : r.addr.isSome = decide (r.kind = .outOfBoundsAccess)
  outside : ∀ a, r.addr = some a → a < 0 ∨ (s.mem.size : Int) ≤ a
  finiteWord : r.kind = .wordOverflow → s.cfg.wordBits ≠ none
  finiteDepth : r.kind = .channelOverflow → s.cfg.channelDepth ≠ none

/-- The core waits at an INPUT that has passed every check: its destination is in bounds and its input channel is
wired (R24, R152). -/
def State.WaitsAtInput (s : State) : Prop :=
  ∃ ms lit1 d, fetchInstr s.mem s.ip = .ok (.input ms lit1) ∧ destination s.mem lit1 = .ok d ∧ s.inPort.isSome

/-- The invariant of a core with its channels. -/
structure State.Inv (s : State) : Prop where
  /-- the build is one the spec admits (R6) -/
  admitted : s.cfg.admitted = true
  /-- memory is in canonical form -/
  memWf : s.mem.wf
  /-- the channels are in canonical form -/
  chansWf : Channels.wf s.chans
  /-- `finished` is `status = Halted` (R25) -/
  finished : s.finished = decide (s.status = .halted)
  /-- a fault record exactly in `Faulted` (R26) -/
  faulted : s.fault.isSome = decide (s.status = .faulted)
  /-- the record fits (R26, R180, R181) -/
  record : ∀ r, s.fault = some r → r.Fits s
  /-- a blocked core waits at an INPUT (R24, R152) -/
  waits : s.status = .blockedOnInput → s.WaitsAtInput
  /-- every word in range (D34) -/
  inRange : s.WordsInRange
  /-- no channel over its depth (R159) -/
  depth : ∀ k, s.cfg.channelDepth = some k → ∀ e ∈ s.chans, e.2.length ≤ k

/-- The transitions of R24 that a step can make: the core's own rows of the table, and no change. -/
def Status.mayStepTo : Status → Status → Bool
  | .running, .running => true
  | .running, .blockedOnInput => true
  | .running, .halted => true
  | .running, .faulted => true
  | .blockedOnInput, .running => true
  | .blockedOnInput, .blockedOnInput => true
  | .ready, .ready => true
  | .halted, .halted => true
  | .faulted, .faulted => true
  | _, _ => false

/-- A safe step: it ends in no fault. -/
def State.stepsSafely (s : State) : Prop :=
  ∃ t, step s = .next t ∧ t.status ≠ .faulted

/-- No two cores consume from one channel and no two produce onto one (R31). -/
def Network.WellWired (n : Network) : Prop :=
  ∀ i j c c', i ≠ j → n.coreAt i = some c → n.coreAt j = some c' →
    (∀ p, c.inPort = some p → c'.inPort ≠ some p) ∧ (∀ p, c.outPort = some p → c'.outPort ≠ some p)

/-- The invariant of a network: it is well wired, its channels are in canonical form, in range and no deeper than the
build allows, every core with the channels meets the core's invariant, and what the host remembers of the run is an end
that R196 gives. -/
structure Network.Inv (n : Network) : Prop where
  wired : n.WellWired
  admitted : n.cfg.admitted = true
  chansWf : Channels.wf n.chans
  chansInRange : ∀ e ∈ n.chans, ∀ v ∈ e.2, n.cfg.inRange v = true
  depth : ∀ k, n.cfg.channelDepth = some k → ∀ e ∈ n.chans, e.2.length ≤ k
  cores : ∀ i c, n.coreAt i = some c → (n.viewOf c).Inv
  /-- only a started network's run has ended (R196) -/
  endsStarted : n.ended.isSome = true → n.hasStarted = true
  /-- only a complete run has a result (R196) -/
  onlyCompleteHasResult : ∀ o, n.ended = some o → o.how ≠ .complete → o.result = none

end Sys2Proof.Machine
end

