-- ==== Sys2Proof/Certificates/Slice0/Obligations.lean ====
section
/-! DEFINITION. The statements for the provers, from the numbered rules of spec/. -/

open Sys2Proof Sys2Proof.Machine

/-! ### Encoding (spec/30_encoding.md) -/

/-- R80, R81, R86, R97: decoding the words of any instruction, whatever words follow, gives it back, every mode
digit and every literal at every value. -/
def Obligations.DecodeEncodeRoundTrip : Prop :=
  ∀ (i : Instr) (rest : List Int), decode (encode i ++ rest) = .ok (i, rest)

/-- R80, R86, R97: an instruction that decodes is made of exactly the words its encoding gives. -/
def Obligations.DecodedWordsAreTheEncoding : Prop :=
  ∀ (ws rest : List Int) (i : Instr), decode ws = .ok (i, rest) → ws = encode i ++ rest

/-- R97, its table of words: these 72 words decode and no other word does. -/
def Obligations.LegalWordsAreTheTable : Prop :=
  ∀ w : Int, (∃ r, decodeWord w = .ok r) ↔ w ∈
    ([1, 101, 1001, 1101, 10001, 10101, 11001, 11101] ++ [2, 102, 1002, 1102, 10002, 10102, 11002, 11102] ++
      [3, 103, 1003, 1103, 10003, 10103, 11003, 11103] ++ [4, 104, 1004, 1104, 10004, 10104, 11004, 11104] ++
      [5, 105, 1005, 1105, 10005, 10105, 11005, 11105] ++ [6, 106, 1006, 1106, 10006, 10106, 11006, 11106] ++
      [7, 107, 1007, 1107, 10007, 10107, 11007, 11107] ++ [8, 108, 1008, 1108, 10008, 10108, 11008, 11108] ++
      [99, 199, 1099, 1199, 10099, 10199, 11099, 11199] : List Int)

/-- R81 to R85: words written out from the spec's encodings decode to the instructions they stand for. -/
def Obligations.WrittenOutWordsDecode : Prop :=
  decode [1002, 4, 3, 4] = .ok (.multiply ⟨.position, .immediate, .position⟩ 4 3 4, []) ∧
    decode [10101, 7, 0, 20] = .ok (.add ⟨.immediate, .position, .immediate⟩ 7 0 20, []) ∧
    decode [3, 9] = .ok (.input ⟨.position, .position, .position⟩ 9, []) ∧
    decode [104, -5, 99] = .ok (.output ⟨.immediate, .position, .position⟩ (-5), [99]) ∧
    decode [1105, 1, 18] = .ok (.jumpIfTrue ⟨.immediate, .immediate, .position⟩ 1 18, []) ∧
    decode [1006, 22, 16] = .ok (.jumpIfFalse ⟨.position, .immediate, .position⟩ 22 16, []) ∧
    decode [107, 2, 10, 9] = .ok (.lessThan ⟨.immediate, .position, .position⟩ 2 10 9, []) ∧
    decode [8, 5, 5, 6] = .ok (.equals ⟨.position, .position, .position⟩ 5 5 6, []) ∧
    decode [11199] = .ok (.halt ⟨.immediate, .immediate, .immediate⟩, [])

/-- R89: a digit past the parameter count changes nothing about the instruction; `1099` and `11199` are HALT and
`10104` is OUTPUT with parameter 1 IMMEDIATE. R88: nor does the digit of a destination. -/
def Obligations.IgnoredDigitsChangeNothing : Prop :=
  (∀ m1 m2 m3 n1 n2 n3 s, exec (.halt ⟨m1, m2, m3⟩) s = exec (.halt ⟨n1, n2, n3⟩) s) ∧
    (∀ m1 m2 m3 n1 n2 n3 l1 s, exec (.input ⟨m1, m2, m3⟩ l1) s = exec (.input ⟨n1, n2, n3⟩ l1) s) ∧
    (∀ m1 m2 m3 n2 n3 l1 s, exec (.output ⟨m1, m2, m3⟩ l1) s = exec (.output ⟨m1, n2, n3⟩ l1) s) ∧
    (∀ m1 m2 m3 n3 l1 l2 s, exec (.jumpIfTrue ⟨m1, m2, m3⟩ l1 l2) s = exec (.jumpIfTrue ⟨m1, m2, n3⟩ l1 l2) s) ∧
    (∀ m1 m2 m3 n3 l1 l2 s, exec (.jumpIfFalse ⟨m1, m2, m3⟩ l1 l2) s = exec (.jumpIfFalse ⟨m1, m2, n3⟩ l1 l2) s) ∧
    (∀ m1 m2 m3 n3 l1 l2 l3 s, exec (.add ⟨m1, m2, m3⟩ l1 l2 l3) s = exec (.add ⟨m1, m2, n3⟩ l1 l2 l3) s) ∧
    (∀ m1 m2 m3 n3 l1 l2 l3 s, exec (.multiply ⟨m1, m2, m3⟩ l1 l2 l3) s = exec (.multiply ⟨m1, m2, n3⟩ l1 l2 l3) s) ∧
    (∀ m1 m2 m3 n3 l1 l2 l3 s, exec (.lessThan ⟨m1, m2, m3⟩ l1 l2 l3) s = exec (.lessThan ⟨m1, m2, n3⟩ l1 l2 l3) s) ∧
    (∀ m1 m2 m3 n3 l1 l2 l3 s, exec (.equals ⟨m1, m2, m3⟩ l1 l2 l3) s = exec (.equals ⟨m1, m2, n3⟩ l1 l2 l3) s) ∧
    (∃ ms, decode [1099] = .ok (.halt ms, [])) ∧ (∃ ms, decode [11199] = .ok (.halt ms, [])) ∧
    (∃ ms, decode [10104, 5] = .ok (.output ms 5, []) ∧ ms.mode1 = .immediate)

/-! ### One step (spec/40_cycle.md) -/

/-- R103, R105: when the words at `ip` decode to an instruction, a core with an enabled step executes exactly it;
the step adds nothing around it. -/
def Obligations.StepRunsTheDecodedInstruction : Prop :=
  ∀ (s : State) (i : Instr) (rest : List Int), s.enabled = true →
    decode (wordsFrom s.mem longestInstr s.ip) = .ok (i, rest) → step s = exec i s

/-- R104, R107: a core has an enabled step exactly when it is `Running`, or `BlockedOnInput` with a value on its
input channel; a step of any other core changes nothing. -/
def Obligations.DisabledStepChangesNothing : Prop :=
  ∀ s : State,
    (s.enabled = true ↔ s.status = .running ∨
      (s.status = .blockedOnInput ∧ ∃ c, s.inPort = some c ∧ Channels.queue s.chans c ≠ [])) ∧
    (s.enabled = false → step s = .next s)

/-- R106: an enabled step completes, blocks, halts or faults, and in the last three changes nothing but the status,
the flag and the record. -/
def Obligations.StepHasFourOutcomes : Prop :=
  ∀ s : State, s.enabled = true → ∃ t, step s = .next t ∧
    (t.status = .running ∨ t = { s with status := .blockedOnInput } ∨
      t = { s with status := .halted, finished := true } ∨
      ∃ r, t = { s with status := .faulted, fault := some r })

/-- R103 step 1: a fetch outside `[0, L)` faults with the out-of-range `ip` as `at` and as `addr`. -/
def Obligations.FetchOutsideMemoryFaults : Prop :=
  ∀ s : State, s.enabled = true → (s.ip < 0 ∨ (s.mem.size : Int) ≤ s.ip) →
    step s = .next { s with status := .faulted, fault := some ⟨.outOfBoundsAccess, s.ip, some s.ip⟩ }

/-- R90, R92, R93, and R91 for a negative word: a word at `ip` with no legal opcode, with a mode digit of 2 to 9,
above 99999 or negative raises `MalformedInstruction`. -/
def Obligations.IllegalWordFaults : Prop :=
  ∀ (s : State) (w : Int), s.enabled = true → memRead s.mem s.ip = .ok w →
    (w < 0 ∨ 99999 < w ∨ w % 100 ∉ ([1, 2, 3, 4, 5, 6, 7, 8, 99] : List Int) ∨
      2 ≤ w / 100 % 10 ∨ 2 ≤ w / 1000 % 10 ∨ 2 ≤ w / 10000 % 10) →
    step s = .next { s with status := .faulted, fault := some ⟨.malformedInstruction, s.ip, none⟩ }

/-- R96: an instruction whose words run past the end of memory faults at the first parameter fetch at an address
`>= L`, which is `L`. -/
def Obligations.TruncatedInstructionFaults : Prop :=
  ∀ (s : State) (w : Int) (op : Opcode) (ms : Modes), s.enabled = true → memRead s.mem s.ip = .ok w →
    decodeWord w = .ok (op, ms) → (s.mem.size : Int) ≤ s.ip + op.nparams →
    step s = .next { s with status := .faulted, fault := some ⟨.outOfBoundsAccess, s.ip, some s.mem.size⟩ }

/-- R182: a step that faults leaves `mem`, `ip`, `outLog` and every channel as they were, writes the status and the
record and nothing else, and the faulted core never steps again. -/
def Obligations.FaultsArePreciseAndFinal : Prop :=
  ∀ s t : State, step s = .next t → s.status ≠ .faulted → t.status = .faulted →
    t.mem = s.mem ∧ t.ip = s.ip ∧ t.outLog = s.outLog ∧ t.chans = s.chans ∧ t.finished = s.finished ∧
      t.inPort = s.inPort ∧ t.outPort = s.outPort ∧ t.cfg = s.cfg ∧
      (∃ r, t.fault = some r ∧ r.Fits t) ∧ step t = .next t

/-- R22, R27: no step changes the length of memory or the ports, nor the parameters of the build, which the model
keeps in the state (log entry 3). -/
def Obligations.StepKeepsSizeAndWiring : Prop :=
  ∀ s t : State, step s = .next t →
    t.mem.size = s.mem.size ∧ t.inPort = s.inPort ∧ t.outPort = s.outPort ∧ t.cfg = s.cfg

/-- R24: from a state that meets the invariant, a step moves the status only as the table allows. -/
def Obligations.StatusMovesAsTheTableAllows : Prop :=
  ∀ s t : State, s.Inv → step s = .next t → Status.mayStepTo s.status t.status = true

/-- R24, R152: a blocked core whose channel has received a value completes its INPUT: it cannot fault, the oldest
value is taken and written to the destination of the INPUT at `ip`, every other address reads as before, and `ip`
advances by 2. -/
def Obligations.BlockedInputResumes : Prop :=
  ∀ (s : State) (c : Nat) (v : Int) (q : List Int), s.Inv → s.status = .blockedOnInput → s.inPort = some c →
    Channels.queue s.chans c = v :: q →
    ∃ t, step s = .next t ∧ t.status = .running ∧ t.ip = s.ip + 2 ∧ Channels.queue t.chans c = q ∧
      (∃ ms lit1 d, fetchInstr s.mem s.ip = .ok (.input ms lit1) ∧ destination s.mem lit1 = .ok d) ∧
      ∀ ms lit1 d, fetchInstr s.mem s.ip = .ok (.input ms lit1) → destination s.mem lit1 = .ok d →
        memRead t.mem d = .ok v ∧ ∀ a : Int, a ≠ d → memRead t.mem a = memRead s.mem a

/-- The invariant of a core: the parameters are admitted (R6), memory and the channels are in canonical form, the flag
`finished` is `status = Halted` (R25), there is a fault record exactly in `Faulted` and it fits (R26, R180, R181), a
blocked core waits at an INPUT that has passed every check (R24, R152), and on a finite build every word is in range
and no channel is over its depth (D34, R159). Every step keeps it. -/
def Obligations.StepKeepsTheInvariant : Prop :=
  ∀ s t : State, s.Inv → step s = .next t → t.Inv

/-- The invariant holds right after reset, which in this model is a core built from no program (log entry 13). -/
def Obligations.ResetMeetsTheInvariant : Prop :=
  State.reset.Inv

/-- R230: a core built by `new(program)` holds its own copy of the program, word for word, and every other field at
its reset value. -/
def Obligations.NewCoreIsAtReset : Prop :=
  ∀ (cfg : Config) (program : List Int) (c : CoreState), newCore cfg program = .ok c →
    c.mem.size = program.length ∧ (∀ (i : Nat) (v : Int), program[i]? = some v → memRead c.mem (i : Int) = .ok v) ∧
      c.ip = 0 ∧ c.status = .ready ∧ c.finished = false ∧ c.fault = none ∧ c.inPort = none ∧ c.outPort = none ∧
      c.outLog = []

/-- R106, R55: what a core becomes depends on its own state, its input channel and, on a finite build, whether its
output channel is full, and on nothing else of the channels. -/
def Obligations.StepReadsOnlyItsOwnInputs : Prop :=
  ∀ s s' t t' : State, s.toCoreState = s'.toCoreState → s.cfg = s'.cfg →
    (∀ c, s.inPort = some c → Channels.queue s.chans c = Channels.queue s'.chans c) →
    (∀ c, s.outPort = some c → chanFull s.cfg s.chans c = chanFull s'.cfg s'.chans c) →
    step s = .next t → step s' = .next t' → t.toCoreState = t'.toCoreState

/-! ### Operands and memory (spec/20_memory.md, spec/30_encoding.md) -/

/-- R51: a read inside `[0, L)` answers the word, any other address traps with itself as `addr`. -/
def Obligations.MemReadIsBoundsChecked : Prop :=
  ∀ (m : Memory) (a : Int),
    memRead m a = if a < 0 ∨ (m.size : Int) ≤ a then .error ⟨.outOfBoundsAccess, some a⟩ else .ok (m.word a.toNat)

/-- R87: an IMMEDIATE source is its literal, a POSITION source is the word its literal addresses, and traps with the
literal as `addr` outside `[0, L)`. -/
def Obligations.SourceOperandForms : Prop :=
  ∀ (m : Memory) (lit : Int), operand m .immediate lit = .ok lit ∧
    operand m .position lit =
      if 0 ≤ lit ∧ lit < m.size then .ok (m.word lit.toNat) else .error ⟨.outOfBoundsAccess, some lit⟩

/-- R52, R56, R59: a write answers a memory of the same length in which the address reads as the word written and
every other address as before, and no write is made outside `[0, L)`. -/
def Obligations.MemWriteThenRead : Prop :=
  ∀ (m : Memory) (a : Int) (v : Int),
    ((a < 0 ∨ (m.size : Int) ≤ a) → memWrite m a v = .error ⟨.outOfBoundsAccess, some a⟩) ∧
    ((0 ≤ a ∧ a < m.size) → ∃ m', memWrite m a v = .ok m' ∧ m'.size = m.size ∧ memRead m' a = .ok v ∧
      ∀ b, b ≠ a → memRead m' b = memRead m b)

/-! ### Arithmetic and comparison (spec/41_arith.md) -/

/-- R111: where the operands can be read, the destination is in bounds and the build can hold the sum, ADD completes:
the exact sum is written to the destination, `ip` advances by 4 and nothing else changes. -/
def Obligations.AddWritesTheSum : Prop :=
  ∀ (ms : Modes) (l1 l2 l3 a b : Int) (s : State), operand s.mem ms.mode1 l1 = .ok a →
    operand s.mem ms.mode2 l2 = .ok b → 0 ≤ l3 → l3 < s.mem.size → s.cfg.inRange (a + b) = true →
    ∃ t, exec (.add ms l1 l2 l3) s = .next t ∧
      t = { s with mem := s.mem.store l3.toNat (a + b), ip := s.ip + 4, status := .running } ∧
      memRead t.mem l3 = .ok (a + b)

/-- R112: as for ADD, with the exact product. -/
def Obligations.MultiplyWritesTheProduct : Prop :=
  ∀ (ms : Modes) (l1 l2 l3 a b : Int) (s : State), operand s.mem ms.mode1 l1 = .ok a →
    operand s.mem ms.mode2 l2 = .ok b → 0 ≤ l3 → l3 < s.mem.size → s.cfg.inRange (a * b) = true →
    ∃ t, exec (.multiply ms l1 l2 l3) s = .next t ∧
      t = { s with mem := s.mem.store l3.toNat (a * b), ip := s.ip + 4, status := .running } ∧
      memRead t.mem l3 = .ok (a * b)

/-- R113: where the operands can be read and the destination is in bounds, LESS-THAN completes on every build: 1 is
written if the first is less than the second in the signed order, else 0. -/
def Obligations.LessThanWritesOneOrZero : Prop :=
  ∀ (ms : Modes) (l1 l2 l3 a b : Int) (s : State), operand s.mem ms.mode1 l1 = .ok a →
    operand s.mem ms.mode2 l2 = .ok b → 0 ≤ l3 → l3 < s.mem.size →
    ∃ t, exec (.lessThan ms l1 l2 l3) s = .next t ∧
      t = { s with mem := s.mem.store l3.toNat (if a < b then 1 else 0), ip := s.ip + 4, status := .running } ∧
      memRead t.mem l3 = .ok (if a < b then 1 else 0)

/-- R114: where the operands can be read and the destination is in bounds, EQUALS completes on every build: 1 is
written if the operands are equal, else 0. -/
def Obligations.EqualsWritesOneOrZero : Prop :=
  ∀ (ms : Modes) (l1 l2 l3 a b : Int) (s : State), operand s.mem ms.mode1 l1 = .ok a →
    operand s.mem ms.mode2 l2 = .ok b → 0 ≤ l3 → l3 < s.mem.size →
    ∃ t, exec (.equals ms l1 l2 l3) s = .next t ∧
      t = { s with mem := s.mem.store l3.toNat (if a = b then 1 else 0), ip := s.ip + 4, status := .running } ∧
      memRead t.mem l3 = .ok (if a = b then 1 else 0)

/-- R116: on a build of `N`-bit words, an ADD or MULTIPLY whose exact result lies outside the range raises
`WordOverflow` and writes nothing. -/
def Obligations.OverflowFaultsAndWritesNothing : Prop :=
  ∀ (n : Nat) (ms : Modes) (l1 l2 l3 a b : Int) (s : State), s.cfg.wordBits = some n →
    operand s.mem ms.mode1 l1 = .ok a → operand s.mem ms.mode2 l2 = .ok b → 0 ≤ l3 → l3 < s.mem.size →
    ((a + b < -(2 ^ (n - 1)) ∨ 2 ^ (n - 1) - 1 < a + b) → exec (.add ms l1 l2 l3) s =
      .next { s with status := .faulted, fault := some ⟨.wordOverflow, s.ip, none⟩ }) ∧
    ((a * b < -(2 ^ (n - 1)) ∨ 2 ^ (n - 1) - 1 < a * b) → exec (.multiply ms l1 l2 l3) s =
      .next { s with status := .faulted, fault := some ⟨.wordOverflow, s.ip, none⟩ })

/-- R103 steps 4 and 5, R183: ADD, MULTIPLY, LESS-THAN and EQUALS report the first source out of bounds, then the
second, then the destination, each with its literal as `addr`. -/
def Obligations.ArithmeticFaultOrder : Prop :=
  ∀ (i : Instr) (ms : Modes) (l1 l2 l3 : Int) (s : State),
    (i = .add ms l1 l2 l3 ∨ i = .multiply ms l1 l2 l3 ∨ i = .lessThan ms l1 l2 l3 ∨ i = .equals ms l1 l2 l3) →
    (ms.mode1 = .position ∧ (l1 < 0 ∨ (s.mem.size : Int) ≤ l1) → exec i s =
      .next { s with status := .faulted, fault := some ⟨.outOfBoundsAccess, s.ip, some l1⟩ }) ∧
    (∀ a, operand s.mem ms.mode1 l1 = .ok a → ms.mode2 = .position ∧ (l2 < 0 ∨ (s.mem.size : Int) ≤ l2) → exec i s =
      .next { s with status := .faulted, fault := some ⟨.outOfBoundsAccess, s.ip, some l2⟩ }) ∧
    (∀ a b, operand s.mem ms.mode1 l1 = .ok a → operand s.mem ms.mode2 l2 = .ok b →
      (l3 < 0 ∨ (s.mem.size : Int) ≤ l3) → exec i s =
      .next { s with status := .faulted, fault := some ⟨.outOfBoundsAccess, s.ip, some l3⟩ })

/-- The frame of ADD, MULTIPLY, LESS-THAN and EQUALS (R110, R182): every address but the destination reads as before,
all of memory after a fault; no channel, port, log, flag or parameter changes; the fault record only by a fault. -/
def Obligations.ArithmeticFrame : Prop :=
  ∀ (i : Instr) (ms : Modes) (l1 l2 l3 : Int) (s t : State),
    (i = .add ms l1 l2 l3 ∨ i = .multiply ms l1 l2 l3 ∨ i = .lessThan ms l1 l2 l3 ∨ i = .equals ms l1 l2 l3) →
    exec i s = .next t →
    (∀ d : Nat, destination s.mem l3 = .ok d → ∀ a : Int, a ≠ d → memRead t.mem a = memRead s.mem a) ∧
      (t.status = .faulted → t.mem = s.mem) ∧ (t.status ≠ .faulted → t.status = .running ∧ t.fault = s.fault) ∧
      t.mem.size = s.mem.size ∧ t.finished = s.finished ∧ t.inPort = s.inPort ∧ t.outPort = s.outPort ∧
      t.outLog = s.outLog ∧ t.chans = s.chans ∧ t.cfg = s.cfg

/-! ### Control transfer and HALT (spec/42_control.md) -/

/-- R131: where both operands can be read, JUMP-IF-TRUE completes: `ip` becomes the target if the condition is any
word but 0, else it advances by 3; nothing else changes. -/
def Obligations.JumpIfTrueSetsIp : Prop :=
  ∀ (ms : Modes) (l1 l2 c t : Int) (s : State), operand s.mem ms.mode1 l1 = .ok c →
    operand s.mem ms.mode2 l2 = .ok t →
    exec (.jumpIfTrue ms l1 l2) s = .next { s with ip := if c = 0 then s.ip + 3 else t, status := .running }

/-- R132: where both operands can be read, JUMP-IF-FALSE completes: `ip` becomes the target if the condition is 0,
else it advances by 3; nothing else changes. -/
def Obligations.JumpIfFalseSetsIp : Prop :=
  ∀ (ms : Modes) (l1 l2 c t : Int) (s : State), operand s.mem ms.mode1 l1 = .ok c →
    operand s.mem ms.mode2 l2 = .ok t →
    exec (.jumpIfFalse ms l1 l2) s = .next { s with ip := if c = 0 then t else s.ip + 3, status := .running }

/-- R131, R132, R183: a jump reads its condition and then its target, taken or not, and reports the first that is out
of bounds. -/
def Obligations.JumpFaultOrder : Prop :=
  ∀ (i : Instr) (ms : Modes) (l1 l2 : Int) (s : State), (i = .jumpIfTrue ms l1 l2 ∨ i = .jumpIfFalse ms l1 l2) →
    (ms.mode1 = .position ∧ (l1 < 0 ∨ (s.mem.size : Int) ≤ l1) → exec i s =
      .next { s with status := .faulted, fault := some ⟨.outOfBoundsAccess, s.ip, some l1⟩ }) ∧
    (∀ c, operand s.mem ms.mode1 l1 = .ok c → ms.mode2 = .position ∧ (l2 < 0 ∨ (s.mem.size : Int) ≤ l2) → exec i s =
      .next { s with status := .faulted, fault := some ⟨.outOfBoundsAccess, s.ip, some l2⟩ })

/-- R134: a taken jump writes its target to `ip` whatever its value; outside `[0, L)` the next step faults with the
target as `at` and `addr`, and on a word that is no legal instruction word it is `MalformedInstruction`. -/
def Obligations.JumpTargetIsCheckedAtTheNextFetch : Prop :=
  ∀ (i : Instr) (ms : Modes) (l1 l2 c t : Int) (s : State), operand s.mem ms.mode1 l1 = .ok c →
    operand s.mem ms.mode2 l2 = .ok t →
    ((i = .jumpIfTrue ms l1 l2 ∧ c ≠ 0) ∨ (i = .jumpIfFalse ms l1 l2 ∧ c = 0)) →
    ∃ u, exec i s = .next u ∧ u.ip = t ∧ u.status = .running ∧
      ((t < 0 ∨ (s.mem.size : Int) ≤ t) →
        step u = .next { u with status := .faulted, fault := some ⟨.outOfBoundsAccess, t, some t⟩ }) ∧
      (∀ w e, memRead s.mem t = .ok w → decodeWord w = .error e →
        step u = .next { u with status := .faulted, fault := some ⟨.malformedInstruction, t, none⟩ })

/-- R133: HALT completes in every state: the status is `Halted`, the flag is set and nothing else changes; and the
halted core never steps again. -/
def Obligations.HaltStopsTheCore : Prop :=
  ∀ (ms : Modes) (s : State), exec (.halt ms) s = .next { s with status := .halted, finished := true } ∧
    ∀ t : State, t.status = .halted → step t = .next t

/-- The frame of the jumps and HALT (R130, R133): they write no memory, no channel, no port, no log; the flag only
by HALT and the fault record only by a fault. -/
def Obligations.ControlFrame : Prop :=
  ∀ (i : Instr) (ms : Modes) (l1 l2 : Int) (s t : State),
    (i = .jumpIfTrue ms l1 l2 ∨ i = .jumpIfFalse ms l1 l2 ∨ i = .halt ms) → exec i s = .next t →
    (∀ a : Int, memRead t.mem a = memRead s.mem a) ∧ t.mem = s.mem ∧ t.inPort = s.inPort ∧ t.outPort = s.outPort ∧
      t.outLog = s.outLog ∧ t.chans = s.chans ∧ t.cfg = s.cfg ∧ (t.status ≠ .halted → t.finished = s.finished) ∧
      (t.status ≠ .faulted → t.fault = s.fault)

/-- R136: the next `ip` of every instruction: by its length where it completes, the target of a taken jump, and its
own address where it halts, blocks or faults. -/
def Obligations.NextIpTable : Prop :=
  ∀ (i : Instr) (s t : State), exec i s = .next t →
    (t.status ≠ .running → t.ip = s.ip) ∧
    (t.status = .running →
      ((∃ ms l1 l2 l3, i = .add ms l1 l2 l3 ∨ i = .multiply ms l1 l2 l3 ∨ i = .lessThan ms l1 l2 l3 ∨
          i = .equals ms l1 l2 l3) ∧ t.ip = s.ip + 4) ∨
      ((∃ ms l1, i = .input ms l1 ∨ i = .output ms l1) ∧ t.ip = s.ip + 2) ∨
      (∃ ms l1 l2 c u, i = .jumpIfTrue ms l1 l2 ∧ operand s.mem ms.mode1 l1 = .ok c ∧
        operand s.mem ms.mode2 l2 = .ok u ∧ t.ip = if c ≠ 0 then u else s.ip + 3) ∨
      (∃ ms l1 l2 c u, i = .jumpIfFalse ms l1 l2 ∧ operand s.mem ms.mode1 l1 = .ok c ∧
        operand s.mem ms.mode2 l2 = .ok u ∧ t.ip = if c = 0 then u else s.ip + 3))

/-- R60, R61: an ADD that writes the word after its own last word, where the next instruction starts, writes what the
next fetch reads: if the sum is a HALT word, the core halts there. -/
def Obligations.WrittenWordIsFetchedNext : Prop :=
  ∀ (ms hm : Modes) (l1 l2 l3 a b : Int) (s : State), operand s.mem ms.mode1 l1 = .ok a →
    operand s.mem ms.mode2 l2 = .ok b → l3 = s.ip + 4 → 0 ≤ l3 → l3 < s.mem.size →
    s.cfg.inRange (a + b) = true → a + b = instrWord .halt hm →
    ∃ t, exec (.add ms l1 l2 l3) s = .next t ∧ t.ip = l3 ∧
      step t = .next { t with status := .halted, finished := true }

/-! ### Input, output and the channel (spec/43_io.md) -/

/-- R150: with the destination in bounds, the input channel wired and a value on it, INPUT completes: the oldest value
is taken and written, `ip` advances by 2 and nothing else changes. -/
def Obligations.InputTakesTheOldestValue : Prop :=
  ∀ (ms : Modes) (l1 v : Int) (c : Nat) (q : List Int) (s : State), 0 ≤ l1 → l1 < s.mem.size →
    s.inPort = some c → Channels.queue s.chans c = v :: q →
    ∃ t, exec (.input ms l1) s = .next t ∧
      t = { s with mem := s.mem.store l1.toNat v, chans := Channels.setQueue s.chans c q, ip := s.ip + 2,
                   status := .running } ∧
      memRead t.mem l1 = .ok v ∧ Channels.queue t.chans c = q ∧
      ∀ k, k ≠ c → Channels.queue t.chans k = Channels.queue s.chans k

/-- R153, R152: with the destination in bounds, an INPUT with no channel wired raises `StarvedInput`, and one with a
wired, empty channel blocks, changing only the status. -/
def Obligations.InputStarvesOrBlocks : Prop :=
  ∀ (ms : Modes) (l1 : Int) (s : State), 0 ≤ l1 → l1 < s.mem.size →
    (s.inPort = none → exec (.input ms l1) s =
      .next { s with status := .faulted, fault := some ⟨.starvedInput, s.ip, none⟩ }) ∧
    (∀ c, s.inPort = some c → Channels.queue s.chans c = [] → exec (.input ms l1) s =
      .next { s with status := .blockedOnInput })

/-- R150, R183: an INPUT whose destination is out of bounds faults before the channel is looked at, wired or not,
empty or not, and takes nothing. -/
def Obligations.InputChecksItsDestinationFirst : Prop :=
  ∀ (ms : Modes) (l1 : Int) (s : State), (l1 < 0 ∨ (s.mem.size : Int) ≤ l1) → exec (.input ms l1) s =
    .next { s with status := .faulted, fault := some ⟨.outOfBoundsAccess, s.ip, some l1⟩ }

/-- R151, R154: where the source can be read and the output channel, if one is wired, is not full, OUTPUT completes:
the value goes onto the channel and onto `outLog`, or onto `outLog` alone with no channel wired, and `ip` advances
by 2. -/
def Obligations.OutputPutsAndLogs : Prop :=
  ∀ (ms : Modes) (l1 v : Int) (s : State), operand s.mem ms.mode1 l1 = .ok v →
    (s.outPort = none → exec (.output ms l1) s =
      .next { s with outLog := s.outLog ++ [v], ip := s.ip + 2, status := .running }) ∧
    (∀ c, s.outPort = some c → s.cfg.channelDepth ≠ some (Channels.queue s.chans c).length →
      ∃ t, exec (.output ms l1) s = .next t ∧
        t = { s with chans := chanPut s.chans c v, outLog := s.outLog ++ [v], ip := s.ip + 2, status := .running } ∧
        Channels.queue t.chans c = Channels.queue s.chans c ++ [v] ∧
        ∀ k, k ≠ c → Channels.queue t.chans k = Channels.queue s.chans k)

/-- R151, R183: an OUTPUT whose POSITION source is out of bounds faults with its literal, and puts and logs nothing. -/
def Obligations.OutputSourceFaults : Prop :=
  ∀ (ms : Modes) (l1 : Int) (s : State), ms.mode1 = .position → (l1 < 0 ∨ (s.mem.size : Int) ≤ l1) →
    exec (.output ms l1) s =
      .next { s with status := .faulted, fault := some ⟨.outOfBoundsAccess, s.ip, some l1⟩ }

/-- R159: on a build of finite depth, an OUTPUT onto a channel that already holds that many values raises
`ChannelOverflow`, puts nothing and logs nothing; and the host's seeding puts that would exceed it are refused. -/
def Obligations.FullChannelOverflows : Prop :=
  ∀ (k : Nat), (∀ (ms : Modes) (l1 v : Int) (c : Nat) (s : State), s.cfg.channelDepth = some k →
      operand s.mem ms.mode1 l1 = .ok v → s.outPort = some c → (Channels.queue s.chans c).length = k →
      exec (.output ms l1) s =
        .next { s with status := .faulted, fault := some ⟨.channelOverflow, s.ip, none⟩ }) ∧
    (∀ (n : Network) (c : Nat) (v : Int), n.cfg.channelDepth = some k → n.started = false →
      n.cfg.inRange v = true → (Channels.queue n.chans c).length = k →
      n.hostMove (.seed c v) = .error .seedDoesNotFit)

/-- R158: a core may be wired to itself, and a ring of one core is that wiring; such a core puts its output at the
tail of its own input channel, and its next INPUT takes the oldest value there, which is that output only if nothing
older waits. -/
def Obligations.SelfLoopReadsBackInOrder : Prop :=
  (∀ (c : Nat) (core : CoreState), core.status = .ready →
    core.wire (some c) (some c) = .ok { core with inPort := some c, outPort := some c }) ∧
  outChannel true 1 0 = 0 ∧
  ∀ (ms ms' : Modes) (l1 l1' v : Int) (c : Nat) (s : State), s.inPort = some c → s.outPort = some c →
    operand s.mem ms.mode1 l1 = .ok v → s.cfg.channelDepth ≠ some (Channels.queue s.chans c).length →
    0 ≤ l1' → l1' < s.mem.size →
    ∃ t u, exec (.output ms l1) s = .next t ∧ Channels.queue t.chans c = Channels.queue s.chans c ++ [v] ∧
      exec (.input ms' l1') t = .next u ∧
      memRead u.mem l1' = .ok ((Channels.queue s.chans c).headD v) ∧
      Channels.queue u.chans c = (Channels.queue s.chans c ++ [v]).tail

/-- R62, R155 to R157: values put onto a channel stand behind what it held, in the order of the puts, on no other
channel; a get takes the oldest, and there is one exactly when the channel is not empty. -/
def Obligations.ChannelsAreFifo : Prop :=
  ∀ (cs : Channels) (c : Nat) (vs : List Int),
    (∀ b, Channels.queue (vs.foldl (fun cs v => chanPut cs c v) cs) b =
      if b = c then Channels.queue cs c ++ vs else Channels.queue cs b) ∧
    (chanEmpty cs c = true ↔ chanGet cs c = none) ∧
    (∀ v cs', chanGet cs c = some (v, cs') → Channels.queue cs c = v :: Channels.queue cs' c ∧
      ∀ b, b ≠ c → Channels.queue cs' b = Channels.queue cs b)

/-- The frame of INPUT (R150, R152, R182): every address but its destination reads as before, all of memory unless it
completes; every channel but its input channel holds what it held, all of them unless it completes. -/
def Obligations.InputFrame : Prop :=
  ∀ (ms : Modes) (l1 : Int) (s t : State), exec (.input ms l1) s = .next t →
    (∀ d : Nat, destination s.mem l1 = .ok d → ∀ a : Int, a ≠ d → memRead t.mem a = memRead s.mem a) ∧
      (t.status ≠ .running → t.mem = s.mem ∧ t.chans = s.chans) ∧
      (∀ k, s.inPort ≠ some k → Channels.queue t.chans k = Channels.queue s.chans k) ∧
      (t.status ≠ .faulted → t.fault = s.fault) ∧ t.mem.size = s.mem.size ∧ t.finished = s.finished ∧
      t.inPort = s.inPort ∧ t.outPort = s.outPort ∧ t.outLog = s.outLog ∧ t.cfg = s.cfg

/-- The frame of OUTPUT (R151, R182): it writes no memory; every channel but its output channel holds what it held;
`outLog` and the channels change only where it completes. -/
def Obligations.OutputFrame : Prop :=
  ∀ (ms : Modes) (l1 : Int) (s t : State), exec (.output ms l1) s = .next t →
    (∀ a : Int, memRead t.mem a = memRead s.mem a) ∧ t.mem = s.mem ∧
      (t.status = .faulted → t.chans = s.chans ∧ t.outLog = s.outLog) ∧
      (t.status ≠ .faulted → t.status = .running ∧ t.fault = s.fault) ∧
      (∀ k, s.outPort ≠ some k → Channels.queue t.chans k = Channels.queue s.chans k) ∧
      t.finished = s.finished ∧ t.inPort = s.inPort ∧ t.outPort = s.outPort ∧ t.cfg = s.cfg

/-- Only these events: `outLog` grows only by an OUTPUT, by the value of its source (R154); only INPUT blocks (R152,
R203); only HALT halts (R25). -/
def Obligations.OnlyTheseEvents : Prop :=
  ∀ (i : Instr) (s t : State), exec i s = .next t →
    (t.outLog ≠ s.outLog → ∃ ms l1 v, i = .output ms l1 ∧ operand s.mem ms.mode1 l1 = .ok v ∧
      t.outLog = s.outLog ++ [v]) ∧
    (t.status = .blockedOnInput → ∃ ms l1, i = .input ms l1) ∧
    (t.status = .halted → ∃ ms, i = .halt ms) ∧
    (t.finished ≠ s.finished → ∃ ms, i = .halt ms)

/-! ### Several cores and the host (spec/60_exceptions.md) -/

/-- R55, R62, R199: a step of one core changes no other core, and no channel but the two of its ports. -/
def Obligations.NetworkStepTouchesOneCore : Prop :=
  ∀ (n : Network) (i : Nat), (∀ j, j ≠ i → (n.stepCore i).coreAt j = n.coreAt j) ∧
    (n.stepCore i).cfg = n.cfg ∧
    ∀ c k, n.coreAt i = some c → c.inPort ≠ some k → c.outPort ≠ some k →
      Channels.queue (n.stepCore i).chans k = Channels.queue n.chans k

/-- The invariant of a network: at most one consumer and one producer on a channel (R31), the channels canonical, in
range and within their depth, every core's own invariant, and that only a complete run has a result (R196). Every move
of the host keeps it (R204); which moves it may make when is read from R204 (log entries 12, 16 and 19). -/
def Obligations.HostMovesKeepTheInvariant : Prop :=
  ∀ (n n' : Network) (m : HostMove), n.Inv → n.hostMove m = .ok n' → n'.Inv

/-- R194: the host's start moves every core in `Ready` to `Running` and changes nothing else of any core, no channel
and no parameter. -/
def Obligations.StartMovesReadyCoresToRunning : Prop :=
  ∀ n : Network, n.startAll.cfg = n.cfg ∧ n.startAll.chans = n.chans ∧
    ∀ i, n.startAll.coreAt i =
      (n.coreAt i).map (fun c => if c.status = .ready then { c with status := .running } else c)

/-- R191 to R193: the network the host builds for `phases`: `K` cores in `Ready`, core `i` consuming from `C[i]` and
producing onto the next core's channel, or the sink in a line; before any start `C[0] = [phase[0], SEED]`,
`C[i] = [phase[i]]`, and every other channel is empty. -/
def Obligations.BuiltNetworkIsWiredAndSeeded : Prop :=
  ∀ (cfg : Config) (program phases : List Int) (feedback : Bool) (n : Network),
    buildNetwork cfg program phases feedback = .ok n →
    phases.Nodup ∧ n.cores.length = phases.length ∧ n.started = false ∧
    (∀ i, i < phases.length → ∃ c, n.coreAt i = some c ∧ c.mem.words = program ∧ c.inPort = some i ∧
      c.outPort = some (if feedback = true ∧ i + 1 = phases.length then 0 else i + 1)) ∧
    (∀ p, phases.head? = some p → Channels.queue n.chans 0 = [p, cfg.seed]) ∧
    (∀ i p, 0 < i → phases[i]? = some p → Channels.queue n.chans i = [p]) ∧
    (∀ i, phases.length ≤ i → Channels.queue n.chans i = [])

/-- The network the host builds on an admitted build meets the network's invariant. -/
def Obligations.BuiltNetworkMeetsTheInvariant : Prop :=
  ∀ (cfg : Config) (program phases : List Int) (feedback : Bool) (n : Network), cfg.admitted = true →
    buildNetwork cfg program phases feedback = .ok n → n.Inv

/-- R104, R200: in a network where no core has an enabled step, no step of any core changes anything, in any order.
The second half is the model's reading and no rule of the spec (log entries 12 and 16): a run that has ended,
deadlocked, faulted or complete, keeps its end and its result, or having none, under every move of the host,
constructing and starting a further core included. -/
def Obligations.DeadlockIsForEver : Prop :=
  (∀ n : Network, n.someEnabled = false →
    (∀ i, n.stepCore i = n) ∧ ∀ steps : List Nat, steps.foldl Network.stepCore n = n) ∧
  ∀ (n n' : Network) (m : HostMove) (e : RunEnd), n.runEnd = some e → n.hostMove m = .ok n' →
    n'.runEnd = some e ∧ n'.result = n.result ∧ (e ≠ .complete → n.Inv → n'.result = none)

/-- R64, R195, R201: under unbounded channels and a wiring with one consumer and one producer per channel, the steps
of two cores that both complete may be taken in either order, to the same network. -/
def Obligations.StepsOfTwoCoresCommute : Prop :=
  ∀ (n : Network) (i j : Nat) (ci cj : CoreState), n.Inv → n.cfg.channelDepth = none → i ≠ j →
    n.coreAt i = some ci → n.coreAt j = some cj → (n.viewOf ci).enabled = true → (n.viewOf cj).enabled = true →
    (n.viewOf ci).advance.status ≠ .blockedOnInput → (n.viewOf cj).advance.status ≠ .blockedOnInput →
    (n.stepCore i).stepCore j = (n.stepCore j).stepCore i

/-- R201: under unbounded channels, two schedules that both run a network to its end from one well-formed start, one
of them to a complete end, end in the same network, so with the same `outLog` and `mem` in every core and the same
result. -/
def Obligations.CompleteRunsAgree : Prop :=
  ∀ (n : Network) (schedule schedule' : List Nat), n.Inv → n.cfg.channelDepth = none →
    (n.runSchedule schedule).runEnd = some .complete → (n.runSchedule schedule').runEnd.isSome = true →
    n.runSchedule schedule' = n.runSchedule schedule

/-- R198: the value the bounded search answers is the result of some order of the phase settings, and no order that
ends within the bound has a larger one. The bound is the model's (log entry 8), and so is the choice of the run that
counts for an order under a finite `CHANNEL_DEPTH` (log entry 20). -/
def Obligations.BoundedSearchFindsTheMaximum : Prop :=
  ∀ (rounds : Nat) (cfg : Config) (program phases : List Int) (feedback : Bool) (r : Int),
    maxSignalWithin rounds cfg program phases feedback = some r →
    (∃ order, order.Perm phases ∧ completesWith cfg program feedback order r) ∧
      ∀ order r', order.Perm phases → resultWithin rounds cfg program feedback order = some r' → r' ≤ r

/-! ### The program text and the assembly (spec/30_encoding.md) -/

/-- R99: a string of digits reads as its base-10 value, and one with a minus sign before it as the negative. -/
def Obligations.DigitsReadInBaseTen : Prop :=
  ∀ (d : Nat) (ds : List Nat), (∀ x ∈ d :: ds, x < 10) →
    fieldValue ((d :: ds).map Nat.digitChar) = some ((Nat.ofDigits 10 (d :: ds).reverse : Nat) : Int) ∧
    fieldValue ('-' :: (d :: ds).map Nat.digitChar) = some (-((Nat.ofDigits 10 (d :: ds).reverse : Nat) : Int))

/-- R99: one field that is no integer, an empty one for example, makes the loader refuse the whole text; and a line
break between two characters of the text changes nothing, so it never separates two integers. That a line feed ends
a line is the model's choice (log entry 9). -/
def Obligations.LoaderRefusesBadFields : Prop :=
  (∀ (cfg : Config) (text f : List Char), f ∈ splitCommas (joinLines text) → fieldValue f = none →
    parseProgram cfg text = .error .notAProgramText) ∧
  fieldValue [] = none ∧ (∀ ds, fieldValue ('+' :: ds) = none) ∧
  (∀ (cfg : Config) (text rest : List Char) (c : Char), c ≠ '\r' →
    parseProgram cfg (text ++ c :: '\n' :: rest) = parseProgram cfg (text ++ c :: rest))

/-- R101: each pseudo-instruction assembles to the words of its expansion, and to the words the rule gives; the jump
of NOP is never taken. -/
def Obligations.PseudoInstructionsExpand : Prop :=
  (∀ t, (AsmLine.jmp t).layout = (AsmLine.jt (.imm (.int 1)) t).layout) ∧
    (∀ s d, (AsmLine.mov s d).layout = (AsmLine.add s (.imm (.int 0)) d).layout) ∧
    AsmLine.nop.layout = (AsmLine.jt (.imm (.int 0)) (.imm (.int 0))).layout ∧
    assemble [.jmp (.imm (.int 18))] = some [1105, 1, 18] ∧
    assemble [.mov (.imm (.int 7)) (.int 20)] = some [1101, 7, 0, 20] ∧ assemble [.nop] = some [1105, 0, 0] ∧
    (∃ ms, decode [1105, 0, 0] = .ok (.jumpIfTrue ms 0 0, []) ∧
      ∀ s : State, exec (.jumpIfTrue ms 0 0) s = .next { s with ip := s.ip + 3, status := .running })
end

