-- ==== Sys2Proof/Laws/Sparse.lean ====
section
/-! SUPPORT. The laws of a sparse table: a read after a write, the canonical form, and that canonical tables which
read alike are equal. -/

namespace Sys2Proof.Machine

variable {α : Type} (dflt : α)

@[simp] theorem Sparse.get_nil (a : Nat) : Sparse.get dflt [] a = dflt := rfl

theorem Sparse.get_cons (k : Nat) (v : α) (rest : List (Nat × α)) (a : Nat) :
    Sparse.get dflt ((k, v) :: rest) a = if k = a then v else Sparse.get dflt rest a := rfl

theorem Sparse.get_erase (l : List (Nat × α)) (a b : Nat) :
    Sparse.get dflt (Sparse.erase l a) b = if b = a then dflt else Sparse.get dflt l b := by
  induction l with
  | nil => simp [Sparse.erase]
  | cons e rest ih =>
    obtain ⟨k, w⟩ := e
    simp only [Sparse.erase] at ih ⊢
    by_cases hk : k = a
    · subst hk
      simp only [List.filter_cons, bne_self_eq_false, Bool.false_eq_true, if_false, ih, Sparse.get_cons]
      by_cases hb : b = k
      · rw [if_pos hb, if_pos hb]
      · rw [if_neg hb, if_neg hb, if_neg (fun h => hb h.symm)]
    · have hne : ((k, w).1 != a) = true := by simpa using hk
      simp only [List.filter_cons, hne, if_true, Sparse.get_cons, ih]
      split <;> split <;> simp_all

theorem Sparse.get_of_lt (l : List (Nat × α)) (a : Nat) (h : ∀ e ∈ l, a < e.1) : Sparse.get dflt l a = dflt := by
  induction l with
  | nil => rfl
  | cons e rest ih =>
    obtain ⟨k, w⟩ := e
    have hk : a < k := h (k, w) (by simp)
    rw [Sparse.get_cons, if_neg (by omega), ih (fun e he => h e (by simp [he]))]

theorem Sparse.get_place (l : List (Nat × α)) (a : Nat) (v : α) (b : Nat) (h : ∀ e ∈ l, e.1 ≠ a) :
    Sparse.get dflt (Sparse.place a v l) b = if b = a then v else Sparse.get dflt l b := by
  induction l with
  | nil => simp [Sparse.place, Sparse.get_cons, eq_comm]
  | cons e rest ih =>
    obtain ⟨k, w⟩ := e
    have hk : k ≠ a := h (k, w) (by simp)
    have ih := ih (fun e he => h e (by simp [he]))
    simp only [Sparse.place]
    split
    · simp only [Sparse.get_cons]
      by_cases hb : b = a
      · rw [if_pos hb, if_pos hb.symm]
      · rw [if_neg hb, if_neg (fun h => hb h.symm)]
    · simp only [Sparse.get_cons, ih]
      by_cases hkb : k = b
      · subst hkb; simp [hk]
      · simp [hkb]

theorem Sparse.mem_erase {l : List (Nat × α)} {a : Nat} {e : Nat × α} : e ∈ Sparse.erase l a ↔ e ∈ l ∧ e.1 ≠ a := by
  simp [Sparse.erase]

theorem Sparse.mem_place {l : List (Nat × α)} {a : Nat} {v : α} {e : Nat × α} :
    e ∈ Sparse.place a v l ↔ e = (a, v) ∨ e ∈ l := by
  induction l with
  | nil => simp [Sparse.place]
  | cons x rest ih =>
    obtain ⟨k, w⟩ := x
    simp only [Sparse.place]
    split
    · simp
    · simp only [List.mem_cons, ih]; tauto

section
variable [DecidableEq α]

/-- A read after a write: the value written at its key, and every other key as before. -/
@[simp] theorem Sparse.get_put (l : List (Nat × α)) (a : Nat) (v : α) (b : Nat) :
    Sparse.get dflt (Sparse.put dflt l a v) b = if b = a then v else Sparse.get dflt l b := by
  unfold Sparse.put
  split
  · rename_i hv; rw [Sparse.get_erase, hv]
  · rw [Sparse.get_place _ _ _ _ _ (fun e he => (Sparse.mem_erase.mp he).2), Sparse.get_erase]
    split <;> rfl

/-- The pairs after a write: the one written, unless it is the default, and the others. -/
theorem Sparse.mem_put {l : List (Nat × α)} {a : Nat} {v : α} {e : Nat × α} (h : e ∈ Sparse.put dflt l a v) :
    (e = (a, v) ∧ v ≠ dflt) ∨ e ∈ l := by
  unfold Sparse.put at h
  split at h
  · exact .inr (Sparse.mem_erase.mp h).1
  · rename_i hv
    rcases Sparse.mem_place.mp h with h | h
    · exact .inl ⟨h, hv⟩
    · exact .inr (Sparse.mem_erase.mp h).1

/-- Every write keeps the canonical form. -/
theorem Sparse.put_wf {l : List (Nat × α)} (h : Sparse.WF dflt l) (a : Nat) (v : α) :
    Sparse.WF dflt (Sparse.put dflt l a v) := by
  have herase : (Sparse.erase l a).Pairwise (fun x y => x.1 < y.1) := h.1.filter _
  refine ⟨?_, fun e he => ?_⟩
  · unfold Sparse.put
    split
    · exact herase
    · have key : ∀ m : List (Nat × α), m.Pairwise (fun x y => x.1 < y.1) → (∀ e ∈ m, e.1 ≠ a) →
          (Sparse.place a v m).Pairwise (fun x y => x.1 < y.1) := by
        intro m
        induction m with
        | nil => simp [Sparse.place]
        | cons x rest ih =>
          intro hp hne
          obtain ⟨k, w⟩ := x
          have hk : k ≠ a := hne (k, w) (by simp)
          rw [List.pairwise_cons] at hp
          simp only [Sparse.place]
          split
          · rename_i hlt
            refine List.pairwise_cons.mpr ⟨fun y hy => ?_, List.pairwise_cons.mpr hp⟩
            rcases List.mem_cons.mp hy with rfl | hy
            · exact hlt
            · exact Nat.lt_trans hlt (hp.1 y hy)
          · rename_i hge
            refine List.pairwise_cons.mpr ⟨fun y hy => ?_, ih hp.2 (fun e he => hne e (by simp [he]))⟩
            rcases Sparse.mem_place.mp hy with rfl | hy
            · show k < a; omega
            · exact hp.1 y hy
      exact key _ herase (fun e he => (Sparse.mem_erase.mp he).2)
  · rcases Sparse.mem_put dflt he with ⟨rfl, hv⟩ | he
    · exact hv
    · exact h.2 e he

end

/-- In a canonical table a pair's key reads as its value. -/
theorem Sparse.get_of_mem {l : List (Nat × α)} (h : Sparse.WF dflt l) {e : Nat × α} (he : e ∈ l) :
    Sparse.get dflt l e.1 = e.2 := by
  induction l with
  | nil => simp at he
  | cons x rest ih =>
    obtain ⟨k, w⟩ := x
    have hp := List.pairwise_cons.mp h.1
    rw [Sparse.get_cons]
    rcases List.mem_cons.mp he with rfl | he
    · simp
    · rw [if_neg (Nat.ne_of_lt (hp.1 e he)), ih ⟨hp.2, fun e he => h.2 e (by simp [he])⟩ he]

/-- A key reads as the default or as the value of a pair of the table. -/
theorem Sparse.get_mem_or (l : List (Nat × α)) (a : Nat) :
    Sparse.get dflt l a = dflt ∨ (a, Sparse.get dflt l a) ∈ l := by
  induction l with
  | nil => exact .inl rfl
  | cons x rest ih =>
    obtain ⟨k, w⟩ := x
    rw [Sparse.get_cons]
    split
    · rename_i h; subst h; simp
    · rcases ih with h | h
      · exact .inl h
      · exact .inr (by simp [h])

/-- Canonical tables that read alike are equal, so equal contents are equal data. -/
theorem Sparse.ext_of_get {l m : List (Nat × α)} (hl : Sparse.WF dflt l) (hm : Sparse.WF dflt m)
    (h : ∀ a, Sparse.get dflt l a = Sparse.get dflt m a) : l = m := by
  induction l generalizing m with
  | nil =>
    cases m with
    | nil => rfl
    | cons y ys =>
      obtain ⟨j, x⟩ := y
      have := h j
      rw [Sparse.get_nil, Sparse.get_cons, if_pos rfl] at this
      exact absurd this.symm (hm.2 (j, x) (by simp))
  | cons e rest ih =>
    obtain ⟨k, w⟩ := e
    have hlp := List.pairwise_cons.mp hl.1
    have hw : w ≠ dflt := hl.2 (k, w) (by simp)
    cases m with
    | nil =>
      have := h k
      rw [Sparse.get_nil, Sparse.get_cons, if_pos rfl] at this
      exact absurd this hw
    | cons y ys =>
      obtain ⟨j, x⟩ := y
      have hmp := List.pairwise_cons.mp hm.1
      have hx : x ≠ dflt := hm.2 (j, x) (by simp)
      have hkj : k = j := by
        rcases Nat.lt_trichotomy k j with hlt | heq | hlt
        · have := h k
          rw [Sparse.get_cons, if_pos rfl, Sparse.get_cons, if_neg (by omega),
            Sparse.get_of_lt dflt ys k (fun e he => Nat.lt_trans hlt (hmp.1 e he))] at this
          exact absurd this hw
        · exact heq
        · have := h j
          rw [Sparse.get_cons, if_neg (by omega), Sparse.get_of_lt dflt rest j (fun e he => Nat.lt_trans hlt (hlp.1 e he)),
            Sparse.get_cons, if_pos rfl] at this
          exact absurd this.symm hx
      subst hkj
      have hwx : w = x := by
        have := h k
        rwa [Sparse.get_cons, if_pos rfl, Sparse.get_cons, if_pos rfl] at this
      subst hwx
      refine congrArg _ (ih ⟨hlp.2, fun e he => hl.2 e (by simp [he])⟩ ⟨hmp.2, fun e he => hm.2 e (by simp [he])⟩ fun a => ?_)
      by_cases ha : k = a
      · subst ha
        rw [Sparse.get_of_lt dflt rest k hlp.1, Sparse.get_of_lt dflt ys k hmp.1]
      · have := h a
        rwa [Sparse.get_cons, if_neg ha, Sparse.get_cons, if_neg ha] at this

section
variable [DecidableEq α]

theorem Sparse.get_ofListFrom_of_lt (ws : List α) (a b : Nat) (h : b < a) :
    Sparse.get dflt (Sparse.ofListFrom dflt a ws) b = dflt := by
  induction ws generalizing a with
  | nil => rfl
  | cons v vs ih =>
    simp only [Sparse.ofListFrom]
    split
    · exact ih (a + 1) (by omega)
    · rw [Sparse.get_cons, if_neg (by omega), ih (a + 1) (by omega)]

/-- The table of a list reads as the list. -/
theorem Sparse.get_ofListFrom (ws : List α) (a i : Nat) :
    Sparse.get dflt (Sparse.ofListFrom dflt a ws) (a + i) = (ws[i]?).getD dflt := by
  induction ws generalizing a i with
  | nil => simp [Sparse.ofListFrom]
  | cons v vs ih =>
    simp only [Sparse.ofListFrom]
    cases i with
    | zero =>
      split
      · rename_i hv
        rw [Sparse.get_ofListFrom_of_lt dflt vs (a + 1) (a + 0) (by omega)]; simp [hv]
      · simp [Sparse.get_cons]
    | succ j =>
      have := ih (a + 1) j
      rw [Nat.add_assoc, Nat.add_comm 1 j] at this
      split
      · rw [this]; simp
      · rw [Sparse.get_cons, if_neg (by omega), this]; simp

theorem Sparse.mem_ofListFrom {ws : List α} {a : Nat} {e : Nat × α} (h : e ∈ Sparse.ofListFrom dflt a ws) :
    a ≤ e.1 ∧ e.1 < a + ws.length ∧ e.2 ≠ dflt ∧ e.2 ∈ ws := by
  induction ws generalizing a with
  | nil => simp [Sparse.ofListFrom] at h
  | cons v vs ih =>
    simp only [Sparse.ofListFrom] at h
    split at h
    · obtain ⟨h1, h2, h3, h4⟩ := ih h
      exact ⟨by omega, by simp; omega, h3, by simp [h4]⟩
    · rename_i hv
      rcases List.mem_cons.mp h with rfl | h
      · exact ⟨Nat.le_refl _, by simp, hv, by simp⟩
      · obtain ⟨h1, h2, h3, h4⟩ := ih h
        exact ⟨by omega, by simp; omega, h3, by simp [h4]⟩

theorem Sparse.ofListFrom_wf (ws : List α) (a : Nat) : Sparse.WF dflt (Sparse.ofListFrom dflt a ws) := by
  refine ⟨?_, fun e he => (Sparse.mem_ofListFrom dflt he).2.2.1⟩
  induction ws generalizing a with
  | nil => simp [Sparse.ofListFrom]
  | cons v vs ih =>
    simp only [Sparse.ofListFrom]
    split
    · exact ih (a + 1)
    · exact List.pairwise_cons.mpr ⟨fun e he => (Sparse.mem_ofListFrom dflt he).1, ih (a + 1)⟩

end

end Sys2Proof.Machine
end

