-- ==== Sys2Proof/Laws/Channels.lean ====
section
/-! SUPPORT. The laws of the channels. -/

namespace Sys2Proof.Machine

/-- The contents of every channel after one is replaced. -/
@[simp] theorem Channels.queue_setQueue (cs : Channels) (c : Nat) (q : List Int) (b : Nat) :
    Channels.queue (Channels.setQueue cs c q) b = if b = c then q else Channels.queue cs b :=
  Sparse.get_put _ _ _ _ _

/-- The contents of every channel after a put (R156). -/
@[simp] theorem chanPut_queue (cs : Channels) (c : Nat) (v : Int) (b : Nat) :
    Channels.queue (chanPut cs c v) b = if b = c then Channels.queue cs c ++ [v] else Channels.queue cs b :=
  Channels.queue_setQueue _ _ _ _

/-- A get answers nothing exactly on an empty channel (R155, R157). -/
theorem chanGet_none_iff {cs : Channels} {c : Nat} : chanGet cs c = none ↔ chanEmpty cs c = true := by
  unfold chanGet chanEmpty
  cases Channels.queue cs c <;> simp

/-- A get answers the oldest value and leaves the rest (R157). -/
theorem chanGet_some_iff {cs cs' : Channels} {c : Nat} {v : Int} :
    chanGet cs c = some (v, cs') ↔ ∃ rest, Channels.queue cs c = v :: rest ∧ cs' = Channels.setQueue cs c rest := by
  unfold chanGet
  cases h : Channels.queue cs c with
  | nil => simp
  | cons x rest =>
    simp only [Option.some.injEq, Prod.mk.injEq, List.cons.injEq]
    constructor
    · rintro ⟨rfl, rfl⟩; exact ⟨rest, ⟨rfl, rfl⟩, rfl⟩
    · rintro ⟨r, ⟨rfl, rfl⟩, rfl⟩; exact ⟨rfl, rfl⟩

theorem Channels.setQueue_wf {cs : Channels} (h : Channels.wf cs) (c : Nat) (q : List Int) :
    Channels.wf (Channels.setQueue cs c q) :=
  Sparse.put_wf _ h _ _

/-- A put keeps the canonical form. -/
theorem chanPut_wf {cs : Channels} (h : Channels.wf cs) (c : Nat) (v : Int) : Channels.wf (chanPut cs c v) :=
  Channels.setQueue_wf h _ _

/-- A get keeps the canonical form. -/
theorem chanGet_wf {cs cs' : Channels} (h : Channels.wf cs) {c : Nat} {v : Int}
    (hg : chanGet cs c = some (v, cs')) : Channels.wf cs' := by
  obtain ⟨rest, -, rfl⟩ := chanGet_some_iff.mp hg
  exact Channels.setQueue_wf h _ _

/-- Canonical channels with the same contents are equal. -/
theorem Channels.ext_of_queue {cs cs' : Channels} (h : Channels.wf cs) (h' : Channels.wf cs')
    (hq : ∀ c, Channels.queue cs c = Channels.queue cs' c) : cs = cs' :=
  Sparse.ext_of_get _ h h' hq

/-- A channel is empty or its contents are listed. -/
theorem Channels.queue_mem_or (cs : Channels) (c : Nat) :
    Channels.queue cs c = [] ∨ (c, Channels.queue cs c) ∈ cs :=
  Sparse.get_mem_or _ _ _

/-- The pairs after one channel is replaced: that one and the others. -/
theorem Channels.mem_setQueue {cs : Channels} {c : Nat} {q : List Int} {e : Nat × List Int}
    (h : e ∈ Channels.setQueue cs c q) : e = (c, q) ∨ e ∈ cs := by
  rcases Sparse.mem_put _ h with ⟨h, -⟩ | h
  · exact .inl h
  · exact .inr h

/-- A channel is full only under a finite depth, when it holds that many values (R159). -/
theorem chanFull_iff {cfg : Config} {cs : Channels} {c : Nat} :
    chanFull cfg cs c = true ↔ cfg.channelDepth = some (Channels.queue cs c).length := by
  unfold chanFull
  cases h : cfg.channelDepth with
  | none => simp
  | some k => simp only [beq_iff_eq, Option.some.injEq]; exact eq_comm

theorem chanFull_unbounded {cfg : Config} (h : cfg.channelDepth = none) (cs : Channels) (c : Nat) :
    chanFull cfg cs c = false := by
  simp [chanFull, h]

end Sys2Proof.Machine
end

