-- ==== Sys2Proof/Laws/Decode.lean ====
section
/-! SUPPORT. The small laws of the decoder's tables. -/

namespace Sys2Proof

/-- The opcode map reads back every operation's code (R82). -/
@[simp] theorem opcodeOf_code (op : Opcode) : opcodeOf op.code = some op := by
  cases op <;> rfl

/-- Only an operation's own code selects it (R82, R90). -/
theorem opcodeOf_eq_some {c : Nat} {op : Opcode} (h : opcodeOf c = some op) : c = op.code := by
  unfold opcodeOf at h
  split at h <;> first | (cases h; rfl) | cases h

/-- The mode table reads back every mode's digit (R83). -/
@[simp] theorem modeOf_digit (m : Mode) : modeOf m.digit = some m := by
  cases m <;> rfl

/-- Only a mode's own digit selects it (R83, R92). -/
theorem modeOf_eq_some {d : Nat} {m : Mode} (h : modeOf d = some m) : d = m.digit := by
  unfold modeOf at h
  split at h <;> first | (cases h; rfl) | cases h

/-- An operation that finds its parameters takes `n` words and leaves the rest (R85). -/
theorem assembleInstr_spec {op : Opcode} {ms : Modes} {ps rest : List Int} {i : Instr}
    (h : assembleInstr op ms ps = .ok (i, rest)) : i.opcode = op ∧ i.modes = ms ∧ ps = i.lits ++ rest := by
  unfold assembleInstr at h
  split at h <;> first | (cases h; exact ⟨rfl, rfl, rfl⟩) | cases h

/-- An operation takes the literals of an instruction of its own (R85). -/
theorem assembleInstr_lits (i : Instr) (rest : List Int) :
    assembleInstr i.opcode i.modes (i.lits ++ rest) = .ok (i, rest) := by
  cases i <;> rfl

theorem lits_length (i : Instr) : i.lits.length = i.opcode.nparams := by
  cases i <;> rfl

end Sys2Proof
end

