-- ==== Sys2Proof/Laws/Memory.lean ====
section
/-! SUPPORT. The laws of program memory: the bounds check, a read after a write, the canonical form, and loading. -/

namespace Sys2Proof.Machine

/-- The bounds check passes exactly inside `[0, L)`, and gives the address itself (R51). -/
theorem checkAddress_ok_iff {m : Memory} {a : Int} {d : Nat} :
    checkAddress m a = .ok d ↔ a = d ∧ d < m.size := by
  unfold checkAddress
  split
  · rename_i h
    simp only [Except.ok.injEq]
    omega
  · rename_i h
    simp only [reduceCtorEq, false_iff]
    omega

/-- The bounds check fails exactly outside `[0, L)`, with the address (R51, R181). -/
theorem checkAddress_error_iff {m : Memory} {a : Int} {t : Trap} :
    checkAddress m a = .error t ↔ t = outOfBounds a ∧ (a < 0 ∨ (m.size : Int) ≤ a) := by
  unfold checkAddress
  split
  · rename_i h
    simp only [reduceCtorEq, false_iff]
    omega
  · rename_i h
    simp only [Except.error.injEq]
    constructor
    · rintro rfl; exact ⟨rfl, by omega⟩
    · rintro ⟨rfl, -⟩; rfl

theorem checkAddress_ofNat {m : Memory} {d : Nat} (h : d < m.size) : checkAddress m d = .ok d :=
  checkAddress_ok_iff.mpr ⟨rfl, h⟩

/-- A read answers the word at an address inside `[0, L)` (R51). -/
theorem memRead_ok_iff {m : Memory} {a : Int} {v : Int} :
    memRead m a = .ok v ↔ ∃ d : Nat, a = d ∧ d < m.size ∧ m.word d = v := by
  unfold memRead
  cases h : checkAddress m a with
  | error t =>
    have := (checkAddress_error_iff.mp h).2
    simp only [reduceCtorEq, false_iff]
    rintro ⟨d, rfl, hd, -⟩
    omega
  | ok d =>
    obtain ⟨rfl, hd⟩ := checkAddress_ok_iff.mp h
    simp only [Except.ok.injEq]
    constructor
    · intro hv; exact ⟨d, rfl, hd, hv⟩
    · rintro ⟨d', hd', -, hv⟩
      obtain rfl : d = d' := by exact_mod_cast hd'
      exact hv

/-- A read traps outside `[0, L)`, with the address (R51). -/
theorem memRead_error_iff {m : Memory} {a : Int} {t : Trap} :
    memRead m a = .error t ↔ t = outOfBounds a ∧ (a < 0 ∨ (m.size : Int) ≤ a) := by
  rw [← checkAddress_error_iff]
  unfold memRead
  cases h : checkAddress m a <;> simp

theorem memRead_ofNat {m : Memory} {d : Nat} (h : d < m.size) : memRead m d = .ok (m.word d) :=
  memRead_ok_iff.mpr ⟨d, rfl, h, rfl⟩

/-- A write answers the memory with the word stored, at an address inside `[0, L)` (R52). -/
theorem memWrite_ok_iff {m m' : Memory} {a : Int} {v : Int} :
    memWrite m a v = .ok m' ↔ ∃ d : Nat, a = d ∧ d < m.size ∧ m' = m.store d v := by
  unfold memWrite
  cases h : checkAddress m a with
  | error t =>
    have := (checkAddress_error_iff.mp h).2
    simp only [reduceCtorEq, false_iff]
    rintro ⟨d, rfl, hd, -⟩
    omega
  | ok d =>
    obtain ⟨rfl, hd⟩ := checkAddress_ok_iff.mp h
    simp only [Except.ok.injEq]
    constructor
    · intro hv; exact ⟨d, rfl, hd, hv.symm⟩
    · rintro ⟨d', hd', -, hv⟩
      obtain rfl : d = d' := by exact_mod_cast hd'
      exact hv.symm

@[simp] theorem Memory.store_size (m : Memory) (a : Nat) (v : Int) : (m.store a v).size = m.size := by
  unfold Memory.store; split <;> rfl

/-- The words after a write: the one written, and every other as before (R52, R56). -/
theorem Memory.store_word (m : Memory) (a : Nat) (v : Int) (b : Nat) :
    (m.store a v).word b = if b = a ∧ a < m.size then v else m.word b := by
  unfold Memory.store Memory.word
  split <;> rename_i h <;> simp [h]

@[simp] theorem checkAddress_store (m : Memory) (d : Nat) (v : Int) (a : Int) :
    checkAddress (m.store d v) a = checkAddress m a := by
  simp [checkAddress]

/-- A read after a write (R52, R59). -/
theorem memRead_store {m : Memory} {d : Nat} (h : d < m.size) (v : Int) (a : Int) :
    memRead (m.store d v) a = if a = d then .ok v else memRead m a := by
  unfold memRead
  rw [checkAddress_store]
  cases hc : checkAddress m a with
  | error t =>
    have := (checkAddress_error_iff.mp hc).2
    rw [if_neg (by omega)]
  | ok e =>
    obtain ⟨rfl, he⟩ := checkAddress_ok_iff.mp hc
    simp only [Memory.store_word, Int.natCast_inj]
    split <;> simp_all

/-- Every write keeps the canonical form. -/
theorem Memory.store_wf {m : Memory} (h : m.wf) (a : Nat) (v : Int) : (m.store a v).wf := by
  unfold Memory.store
  split
  · rename_i ha
    refine ⟨Sparse.put_wf _ h.1 a v, fun e he => ?_⟩
    rcases Sparse.mem_put _ he with ⟨rfl, -⟩ | he
    · exact ha
    · exact h.2 e he
  · exact h

/-- The cells after a write: the one written and the others. -/
theorem Memory.mem_store_cells {m : Memory} {a : Nat} {v : Int} {e : Nat × Int} (h : e ∈ (m.store a v).cells) :
    e = (a, v) ∨ e ∈ m.cells := by
  unfold Memory.store at h
  split at h
  · rcases Sparse.mem_put _ h with ⟨h, -⟩ | h
    · exact .inl h
    · exact .inr h
  · exact .inr h

/-- A word is the unlisted word or stands in a cell. -/
theorem Memory.word_mem_or (m : Memory) (a : Nat) : m.word a = Memory.unlisted ∨ (a, m.word a) ∈ m.cells :=
  Sparse.get_mem_or _ _ _

/-- Canonical memories of one length that read alike are equal. -/
theorem Memory.ext_of_word {m m' : Memory} (hm : m.wf) (hm' : m'.wf) (hs : m.size = m'.size)
    (h : ∀ a, m.word a = m'.word a) : m = m' := by
  obtain ⟨sz, cs⟩ := m
  obtain ⟨sz', cs'⟩ := m'
  obtain rfl : sz = sz' := hs
  obtain rfl : cs = cs' := Sparse.ext_of_get _ hm.1 hm'.1 h
  rfl

@[simp] theorem Memory.ofWords_size (ws : List Int) : (Memory.ofWords ws).size = ws.length := rfl

/-- A loaded program reads as its words (R230). -/
theorem Memory.ofWords_word (ws : List Int) (i : Nat) : (Memory.ofWords ws).word i = (ws[i]?).getD 0 := by
  have := Sparse.get_ofListFrom (0 : Int) ws 0 i
  rwa [Nat.zero_add] at this

/-- A loaded program is in canonical form. -/
theorem Memory.ofWords_wf (ws : List Int) : (Memory.ofWords ws).wf :=
  ⟨Sparse.ofListFrom_wf _ _ _, fun e he => by
    have := (Sparse.mem_ofListFrom _ he).2.1
    rwa [Nat.zero_add] at this⟩

/-- The host reads back the program it loaded (R33, R230). -/
theorem Memory.words_ofWords (ws : List Int) : (Memory.ofWords ws).words = ws := by
  apply List.ext_getElem
  · simp [Memory.words]
  · intro i h1 h2
    simp only [Memory.words, Memory.ofWords_size, List.getElem_map, List.getElem_range, Memory.ofWords_word]
    rw [List.getElem?_eq_getElem h2]; rfl

end Sys2Proof.Machine
end

