-- ==== Sys2Proof/Laws/Operands.lean ====
section
/-! SUPPORT. What the operand forms answer. -/

namespace Sys2Proof.Machine

/-- Every trap of an operand is an access out of bounds (R87). -/
theorem operand_error {m : Memory} {md : Mode} {lit : Int} {t : Trap} (h : operand m md lit = .error t) :
    md = .position ∧ t = outOfBounds lit ∧ (lit < 0 ∨ (m.size : Int) ≤ lit) := by
  cases md with
  | position => exact ⟨rfl, memRead_error_iff.mp h⟩
  | immediate => simp [operand] at h

/-- The value of an operand is its literal or a word of memory (R87). -/
theorem operand_ok {m : Memory} {md : Mode} {lit v : Int} (h : operand m md lit = .ok v) :
    (md = .immediate ∧ v = lit) ∨ (md = .position ∧ ∃ d : Nat, lit = d ∧ d < m.size ∧ m.word d = v) := by
  cases md with
  | position => exact .inr ⟨rfl, memRead_ok_iff.mp h⟩
  | immediate => exact .inl ⟨rfl, by simpa [operand, eq_comm] using h⟩

theorem destination_ok_iff {m : Memory} {lit : Int} {d : Nat} :
    destination m lit = .ok d ↔ lit = d ∧ d < m.size := checkAddress_ok_iff

theorem destination_error_iff {m : Memory} {lit : Int} {t : Trap} :
    destination m lit = .error t ↔ t = outOfBounds lit ∧ (lit < 0 ∨ (m.size : Int) ≤ lit) := checkAddress_error_iff

/-- Both sources answer (R183). -/
theorem twoSources_ok_iff {m : Memory} {ms : Modes} {l1 l2 a b : Int} :
    twoSources m ms l1 l2 = .ok (a, b) ↔ operand m ms.mode1 l1 = .ok a ∧ operand m ms.mode2 l2 = .ok b := by
  unfold twoSources
  cases operand m ms.mode1 l1 with
  | error t => simp
  | ok x => cases operand m ms.mode2 l2 <;> simp

/-- The first source that traps is the one reported (R183). -/
theorem twoSources_error_iff {m : Memory} {ms : Modes} {l1 l2 : Int} {t : Trap} :
    twoSources m ms l1 l2 = .error t ↔
      operand m ms.mode1 l1 = .error t ∨ ∃ a, operand m ms.mode1 l1 = .ok a ∧ operand m ms.mode2 l2 = .error t := by
  unfold twoSources
  cases operand m ms.mode1 l1 with
  | error t => simp
  | ok x => cases operand m ms.mode2 l2 <;> simp

/-- Both sources and the destination answer (R183). -/
theorem twoSourcesAndDestination_ok_iff {m : Memory} {ms : Modes} {l1 l2 l3 a b : Int} {d : Nat} :
    twoSourcesAndDestination m ms l1 l2 l3 = .ok (a, b, d) ↔
      operand m ms.mode1 l1 = .ok a ∧ operand m ms.mode2 l2 = .ok b ∧ destination m l3 = .ok d := by
  rw [← and_assoc, ← twoSources_ok_iff]
  unfold twoSourcesAndDestination
  cases twoSources m ms l1 l2 with
  | error t => simp
  | ok p =>
    cases destination m l3 with
    | error t => simp
    | ok e => obtain ⟨x, y⟩ := p; simp [and_assoc]

/-- The sources are reported before the destination (R183). -/
theorem twoSourcesAndDestination_error_iff {m : Memory} {ms : Modes} {l1 l2 l3 : Int} {t : Trap} :
    twoSourcesAndDestination m ms l1 l2 l3 = .error t ↔
      twoSources m ms l1 l2 = .error t ∨ ∃ p, twoSources m ms l1 l2 = .ok p ∧ destination m l3 = .error t := by
  unfold twoSourcesAndDestination
  cases twoSources m ms l1 l2 with
  | error t => simp
  | ok p =>
    cases destination m l3 with
    | error t => simp
    | ok e => simp

/-- Every trap of the operands is an access out of bounds. -/
theorem twoSources_error {m : Memory} {ms : Modes} {l1 l2 : Int} {t : Trap} (h : twoSources m ms l1 l2 = .error t) :
    ∃ a : Int, t = outOfBounds a ∧ (a < 0 ∨ (m.size : Int) ≤ a) := by
  rcases twoSources_error_iff.mp h with h | ⟨_, -, h⟩
  · exact ⟨l1, (operand_error h).2⟩
  · exact ⟨l2, (operand_error h).2⟩

theorem twoSourcesAndDestination_error {m : Memory} {ms : Modes} {l1 l2 l3 : Int} {t : Trap}
    (h : twoSourcesAndDestination m ms l1 l2 l3 = .error t) :
    ∃ a : Int, t = outOfBounds a ∧ (a < 0 ∨ (m.size : Int) ≤ a) := by
  rcases twoSourcesAndDestination_error_iff.mp h with h | ⟨_, -, h⟩
  · exact twoSources_error h
  · exact ⟨l3, destination_error_iff.mp h⟩

/-- The result is the exact one where the build can hold it. -/
theorem narrow_ok_iff {cfg : Config} {r v : Int} : narrow cfg r = .ok v ↔ v = r ∧ cfg.inRange r = true := by
  unfold narrow
  split
  · rename_i h; simp [h, eq_comm]
  · rename_i h; simp [h]

/-- The result traps where it is out of range, which only a finite build has (R116). -/
theorem narrow_error_iff {cfg : Config} {r : Int} {t : Trap} :
    narrow cfg r = .error t ↔ t = ⟨.wordOverflow, none⟩ ∧ cfg.inRange r = false := by
  unfold narrow
  split
  · rename_i h; simp [h]
  · rename_i h; simp [h, eq_comm]

theorem finite_of_not_inRange {cfg : Config} {r : Int} (h : cfg.inRange r = false) : cfg.wordBits ≠ none := by
  intro hn; simp [Config.inRange, hn] at h

end Sys2Proof.Machine
end

