-- ==== Sys2Proof/Laws/State.lean ====
section
/-! SUPPORT. One lemma per field per update of the state: no later proof unfolds a record update. -/

namespace Sys2Proof.Machine

variable (s : State)

/-! `State.completeAt` -/

@[simp] theorem State.completeAt_mem (t : Int) : (s.completeAt t).mem = s.mem := rfl
@[simp] theorem State.completeAt_ip (t : Int) : (s.completeAt t).ip = t := rfl
@[simp] theorem State.completeAt_status (t : Int) : (s.completeAt t).status = .running := rfl
@[simp] theorem State.completeAt_finished (t : Int) : (s.completeAt t).finished = s.finished := rfl
@[simp] theorem State.completeAt_fault (t : Int) : (s.completeAt t).fault = s.fault := rfl
@[simp] theorem State.completeAt_inPort (t : Int) : (s.completeAt t).inPort = s.inPort := rfl
@[simp] theorem State.completeAt_outPort (t : Int) : (s.completeAt t).outPort = s.outPort := rfl
@[simp] theorem State.completeAt_outLog (t : Int) : (s.completeAt t).outLog = s.outLog := rfl
@[simp] theorem State.completeAt_cfg (t : Int) : (s.completeAt t).cfg = s.cfg := rfl
@[simp] theorem State.completeAt_chans (t : Int) : (s.completeAt t).chans = s.chans := rfl

/-! `State.storeWord` -/

@[simp] theorem State.storeWord_mem (d : Nat) (v : Int) : (s.storeWord d v).mem = s.mem.store d v := rfl
@[simp] theorem State.storeWord_ip (d : Nat) (v : Int) : (s.storeWord d v).ip = s.ip := rfl
@[simp] theorem State.storeWord_status (d : Nat) (v : Int) : (s.storeWord d v).status = s.status := rfl
@[simp] theorem State.storeWord_finished (d : Nat) (v : Int) : (s.storeWord d v).finished = s.finished := rfl
@[simp] theorem State.storeWord_fault (d : Nat) (v : Int) : (s.storeWord d v).fault = s.fault := rfl
@[simp] theorem State.storeWord_inPort (d : Nat) (v : Int) : (s.storeWord d v).inPort = s.inPort := rfl
@[simp] theorem State.storeWord_outPort (d : Nat) (v : Int) : (s.storeWord d v).outPort = s.outPort := rfl
@[simp] theorem State.storeWord_outLog (d : Nat) (v : Int) : (s.storeWord d v).outLog = s.outLog := rfl
@[simp] theorem State.storeWord_cfg (d : Nat) (v : Int) : (s.storeWord d v).cfg = s.cfg := rfl
@[simp] theorem State.storeWord_chans (d : Nat) (v : Int) : (s.storeWord d v).chans = s.chans := rfl

/-! `State.setChans` -/

@[simp] theorem State.setChans_mem (cs : Channels) : (s.setChans cs).mem = s.mem := rfl
@[simp] theorem State.setChans_ip (cs : Channels) : (s.setChans cs).ip = s.ip := rfl
@[simp] theorem State.setChans_status (cs : Channels) : (s.setChans cs).status = s.status := rfl
@[simp] theorem State.setChans_finished (cs : Channels) : (s.setChans cs).finished = s.finished := rfl
@[simp] theorem State.setChans_fault (cs : Channels) : (s.setChans cs).fault = s.fault := rfl
@[simp] theorem State.setChans_inPort (cs : Channels) : (s.setChans cs).inPort = s.inPort := rfl
@[simp] theorem State.setChans_outPort (cs : Channels) : (s.setChans cs).outPort = s.outPort := rfl
@[simp] theorem State.setChans_outLog (cs : Channels) : (s.setChans cs).outLog = s.outLog := rfl
@[simp] theorem State.setChans_cfg (cs : Channels) : (s.setChans cs).cfg = s.cfg := rfl
@[simp] theorem State.setChans_chans (cs : Channels) : (s.setChans cs).chans = cs := rfl

/-! `State.logOutput` -/

@[simp] theorem State.logOutput_mem (v : Int) : (s.logOutput v).mem = s.mem := rfl
@[simp] theorem State.logOutput_ip (v : Int) : (s.logOutput v).ip = s.ip := rfl
@[simp] theorem State.logOutput_status (v : Int) : (s.logOutput v).status = s.status := rfl
@[simp] theorem State.logOutput_finished (v : Int) : (s.logOutput v).finished = s.finished := rfl
@[simp] theorem State.logOutput_fault (v : Int) : (s.logOutput v).fault = s.fault := rfl
@[simp] theorem State.logOutput_inPort (v : Int) : (s.logOutput v).inPort = s.inPort := rfl
@[simp] theorem State.logOutput_outPort (v : Int) : (s.logOutput v).outPort = s.outPort := rfl
@[simp] theorem State.logOutput_outLog (v : Int) : (s.logOutput v).outLog = s.outLog ++ [v] := rfl
@[simp] theorem State.logOutput_cfg (v : Int) : (s.logOutput v).cfg = s.cfg := rfl
@[simp] theorem State.logOutput_chans (v : Int) : (s.logOutput v).chans = s.chans := rfl

/-! `State.blockOnInput` -/

@[simp] theorem State.blockOnInput_mem : s.blockOnInput.mem = s.mem := rfl
@[simp] theorem State.blockOnInput_ip : s.blockOnInput.ip = s.ip := rfl
@[simp] theorem State.blockOnInput_status : s.blockOnInput.status = .blockedOnInput := rfl
@[simp] theorem State.blockOnInput_finished : s.blockOnInput.finished = s.finished := rfl
@[simp] theorem State.blockOnInput_fault : s.blockOnInput.fault = s.fault := rfl
@[simp] theorem State.blockOnInput_inPort : s.blockOnInput.inPort = s.inPort := rfl
@[simp] theorem State.blockOnInput_outPort : s.blockOnInput.outPort = s.outPort := rfl
@[simp] theorem State.blockOnInput_outLog : s.blockOnInput.outLog = s.outLog := rfl
@[simp] theorem State.blockOnInput_cfg : s.blockOnInput.cfg = s.cfg := rfl
@[simp] theorem State.blockOnInput_chans : s.blockOnInput.chans = s.chans := rfl

/-! `State.haltNow` -/

@[simp] theorem State.haltNow_mem : s.haltNow.mem = s.mem := rfl
@[simp] theorem State.haltNow_ip : s.haltNow.ip = s.ip := rfl
@[simp] theorem State.haltNow_status : s.haltNow.status = .halted := rfl
@[simp] theorem State.haltNow_finished : s.haltNow.finished = true := rfl
@[simp] theorem State.haltNow_fault : s.haltNow.fault = s.fault := rfl
@[simp] theorem State.haltNow_inPort : s.haltNow.inPort = s.inPort := rfl
@[simp] theorem State.haltNow_outPort : s.haltNow.outPort = s.outPort := rfl
@[simp] theorem State.haltNow_outLog : s.haltNow.outLog = s.outLog := rfl
@[simp] theorem State.haltNow_cfg : s.haltNow.cfg = s.cfg := rfl
@[simp] theorem State.haltNow_chans : s.haltNow.chans = s.chans := rfl

/-! `State.raise` -/

@[simp] theorem State.raise_mem (t : Trap) : (s.raise t).mem = s.mem := rfl
@[simp] theorem State.raise_ip (t : Trap) : (s.raise t).ip = s.ip := rfl
@[simp] theorem State.raise_status (t : Trap) : (s.raise t).status = .faulted := rfl
@[simp] theorem State.raise_finished (t : Trap) : (s.raise t).finished = s.finished := rfl
@[simp] theorem State.raise_fault (t : Trap) : (s.raise t).fault = some ⟨t.kind, s.ip, t.addr⟩ := rfl
@[simp] theorem State.raise_inPort (t : Trap) : (s.raise t).inPort = s.inPort := rfl
@[simp] theorem State.raise_outPort (t : Trap) : (s.raise t).outPort = s.outPort := rfl
@[simp] theorem State.raise_outLog (t : Trap) : (s.raise t).outLog = s.outLog := rfl
@[simp] theorem State.raise_cfg (t : Trap) : (s.raise t).cfg = s.cfg := rfl
@[simp] theorem State.raise_chans (t : Trap) : (s.raise t).chans = s.chans := rfl

end Sys2Proof.Machine
end

