-- ==== Sys2Proof/Laws/Exec.lean ====
section
/-! SUPPORT. Everything an instruction can do, said once: later proofs cite these and never unfold a meaning. -/

namespace Sys2Proof.Machine

/-- A trap that steps 1 to 6 of R103 can raise in a state: an access outside memory, or one of the other kinds with
no address, the last two on a finite build only (R180, R181). -/
def Trap.Fits (t : Trap) (s : State) : Prop :=
  (∃ a : Int, t = outOfBounds a ∧ (a < 0 ∨ (s.mem.size : Int) ≤ a)) ∨
    (t.addr = none ∧ t.kind ≠ .outOfBoundsAccess ∧ (t.kind = .wordOverflow → s.cfg.wordBits ≠ none) ∧
      (t.kind = .channelOverflow → s.cfg.channelDepth ≠ none))

/-- A function of two sources raises nothing but `WordOverflow`, and that on a finite build only. -/
def OnlyOverflows (cfg : Config) (f : Int → Int → Except Trap Int) : Prop :=
  ∀ a b, (∀ r, f a b = .ok r → cfg.inRange 0 = true → cfg.inRange 1 = true → cfg.inRange r = true) ∧
    ∀ t, f a b = .error t → t = ⟨.wordOverflow, none⟩ ∧ cfg.wordBits ≠ none

theorem addWords_onlyOverflows (cfg : Config) : OnlyOverflows cfg (addWords cfg) := fun _ _ =>
  ⟨fun _ h _ _ => by obtain ⟨rfl, hr⟩ := narrow_ok_iff.mp h; exact hr,
   fun _ h => by obtain ⟨rfl, hr⟩ := narrow_error_iff.mp h; exact ⟨rfl, finite_of_not_inRange hr⟩⟩

theorem multiplyWords_onlyOverflows (cfg : Config) : OnlyOverflows cfg (multiplyWords cfg) := fun _ _ =>
  ⟨fun _ h _ _ => by obtain ⟨rfl, hr⟩ := narrow_ok_iff.mp h; exact hr,
   fun _ h => by obtain ⟨rfl, hr⟩ := narrow_error_iff.mp h; exact ⟨rfl, finite_of_not_inRange hr⟩⟩

theorem truthWord_cases (b : Bool) : truthWord b = 0 ∨ truthWord b = 1 := by
  cases b <;> simp [truthWord]

theorem lessThanWords_onlyOverflows (cfg : Config) : OnlyOverflows cfg lessThanWords := fun a b =>
  ⟨fun r h h0 h1 => by
    obtain rfl : truthWord (decide (a < b)) = r := by simpa [lessThanWords] using h
    rcases truthWord_cases (decide (a < b)) with h | h <;> rw [h] <;> assumption,
   fun _ h => by simp [lessThanWords] at h⟩

theorem equalsWords_onlyOverflows (cfg : Config) : OnlyOverflows cfg equalsWords := fun a b =>
  ⟨fun r h h0 h1 => by
    obtain rfl : truthWord (decide (a = b)) = r := by simpa [equalsWords] using h
    rcases truthWord_cases (decide (a = b)) with h | h <;> rw [h] <;> assumption,
   fun _ h => by simp [equalsWords] at h⟩

/-- Everything steps 4 to 7 of R103 can do with an instruction. -/
inductive Effect (i : Instr) (s : State) : State → Prop where
  /-- a fault, and nothing else (R182) -/
  | fault (t : Trap) (fits : t.Fits s) : Effect i s (s.raise t)
  /-- a word written and `ip` advanced by 4 (R110) -/
  | write (f : Int → Int → Except Trap Int) (ms : Modes) (l1 l2 l3 a b : Int) (d : Nat) (r : Int)
      (op : (i = .add ms l1 l2 l3 ∧ f = addWords s.cfg) ∨ (i = .multiply ms l1 l2 l3 ∧ f = multiplyWords s.cfg) ∨
        (i = .lessThan ms l1 l2 l3 ∧ f = lessThanWords) ∨ (i = .equals ms l1 l2 l3 ∧ f = equalsWords))
      (h1 : operand s.mem ms.mode1 l1 = .ok a) (h2 : operand s.mem ms.mode2 l2 = .ok b)
      (h3 : destination s.mem l3 = .ok d) (hf : f a b = .ok r) :
      Effect i s ((s.storeWord d r).completeAt (s.ip + 4))
  /-- a jump, taken or not (R130) -/
  | jump (test : Int → Bool) (ms : Modes) (l1 l2 c t : Int)
      (op : (i = .jumpIfTrue ms l1 l2 ∧ test = holdsTrue) ∨ (i = .jumpIfFalse ms l1 l2 ∧ test = holdsFalse))
      (h1 : operand s.mem ms.mode1 l1 = .ok c) (h2 : operand s.mem ms.mode2 l2 = .ok t) :
      Effect i s (s.completeAt (if test c then t else s.ip + 3))
  /-- the core halted (R133) -/
  | halt (ms : Modes) (op : i = .halt ms) : Effect i s s.haltNow
  /-- the core blocked (R152) -/
  | block (ms : Modes) (l1 : Int) (d : Nat) (c : Nat) (op : i = .input ms l1)
      (h1 : destination s.mem l1 = .ok d) (hc : s.inPort = some c) (he : chanEmpty s.chans c = true) :
      Effect i s s.blockOnInput
  /-- a value taken and written (R150) -/
  | input (ms : Modes) (l1 : Int) (d : Nat) (c : Nat) (v : Int) (rest : List Int) (op : i = .input ms l1)
      (h1 : destination s.mem l1 = .ok d) (hc : s.inPort = some c) (hq : Channels.queue s.chans c = v :: rest) :
      Effect i s (((s.storeWord d v).setChans (Channels.setQueue s.chans c rest)).completeAt (s.ip + 2))
  /-- a value output with no channel wired (R151) -/
  | log (ms : Modes) (l1 v : Int) (op : i = .output ms l1) (h1 : operand s.mem ms.mode1 l1 = .ok v)
      (hc : s.outPort = none) : Effect i s ((s.logOutput v).completeAt (s.ip + 2))
  /-- a value output onto a channel (R151) -/
  | put (ms : Modes) (l1 v : Int) (c : Nat) (op : i = .output ms l1) (h1 : operand s.mem ms.mode1 l1 = .ok v)
      (hc : s.outPort = some c) (hf : chanFull s.cfg s.chans c = false) :
      Effect i s (((s.setChans (chanPut s.chans c v)).logOutput v).completeAt (s.ip + 2))

/-- What ADD, MULTIPLY, LESS-THAN and EQUALS share answers one of three states (R110). -/
theorem writeResult_cases (f : Int → Int → Except Trap Int) (ms : Modes) (l1 l2 l3 : Int) (s : State)
    (hf : OnlyOverflows s.cfg f) :
    ∃ t, writeResult f ms l1 l2 l3 s = .next t ∧
      ((∃ tr : Trap, tr.Fits s ∧ t = s.raise tr) ∨
        ∃ a b d r, operand s.mem ms.mode1 l1 = .ok a ∧ operand s.mem ms.mode2 l2 = .ok b ∧
          destination s.mem l3 = .ok d ∧ f a b = .ok r ∧ t = (s.storeWord d r).completeAt (s.ip + 4)) := by
  unfold writeResult
  cases h : twoSourcesAndDestination s.mem ms l1 l2 l3 with
  | error t => exact ⟨_, rfl, .inl ⟨t, .inl (twoSourcesAndDestination_error h), rfl⟩⟩
  | ok p =>
    obtain ⟨a, b, d⟩ := p
    obtain ⟨h1, h2, h3⟩ := twoSourcesAndDestination_ok_iff.mp h
    cases hr : f a b with
    | error t =>
      obtain ⟨rfl, hw⟩ := (hf a b).2 t hr
      exact ⟨_, by simp only [hr], .inl ⟨⟨.wordOverflow, none⟩, .inr ⟨rfl, by decide, fun _ => hw, by simp⟩, rfl⟩⟩
    | ok r => exact ⟨_, by simp only [hr], .inr ⟨a, b, d, r, h1, h2, h3, hr, rfl⟩⟩

/-- Every instruction answers a next state, by one of the effects. -/
theorem exec_effect (i : Instr) (s : State) : ∃ t, exec i s = .next t ∧ Effect i s t := by
  cases i with
  | add ms l1 l2 l3 =>
    obtain ⟨t, ht, ⟨tr, hf, rfl⟩ | ⟨a, b, d, r, h1, h2, h3, hr, rfl⟩⟩ :=
      writeResult_cases (addWords s.cfg) ms l1 l2 l3 s (addWords_onlyOverflows _)
    · exact ⟨_, ht, .fault tr hf⟩
    · exact ⟨_, ht, .write _ ms l1 l2 l3 a b d r (.inl ⟨rfl, rfl⟩) h1 h2 h3 hr⟩
  | multiply ms l1 l2 l3 =>
    obtain ⟨t, ht, ⟨tr, hf, rfl⟩ | ⟨a, b, d, r, h1, h2, h3, hr, rfl⟩⟩ :=
      writeResult_cases (multiplyWords s.cfg) ms l1 l2 l3 s (multiplyWords_onlyOverflows _)
    · exact ⟨_, ht, .fault tr hf⟩
    · exact ⟨_, ht, .write _ ms l1 l2 l3 a b d r (.inr (.inl ⟨rfl, rfl⟩)) h1 h2 h3 hr⟩
  | lessThan ms l1 l2 l3 =>
    obtain ⟨t, ht, ⟨tr, hf, rfl⟩ | ⟨a, b, d, r, h1, h2, h3, hr, rfl⟩⟩ :=
      writeResult_cases lessThanWords ms l1 l2 l3 s (lessThanWords_onlyOverflows _)
    · exact ⟨_, ht, .fault tr hf⟩
    · exact ⟨_, ht, .write _ ms l1 l2 l3 a b d r (.inr (.inr (.inl ⟨rfl, rfl⟩))) h1 h2 h3 hr⟩
  | equals ms l1 l2 l3 =>
    obtain ⟨t, ht, ⟨tr, hf, rfl⟩ | ⟨a, b, d, r, h1, h2, h3, hr, rfl⟩⟩ :=
      writeResult_cases equalsWords ms l1 l2 l3 s (equalsWords_onlyOverflows _)
    · exact ⟨_, ht, .fault tr hf⟩
    · exact ⟨_, ht, .write _ ms l1 l2 l3 a b d r (.inr (.inr (.inr ⟨rfl, rfl⟩))) h1 h2 h3 hr⟩
  | jumpIfTrue ms l1 l2 =>
    simp only [exec, execJumpIfTrue, jumpWhen]
    cases h : twoSources s.mem ms l1 l2 with
    | error t => exact ⟨_, rfl, .fault t (.inl (twoSources_error h))⟩
    | ok p =>
      obtain ⟨h1, h2⟩ := twoSources_ok_iff.mp h
      exact ⟨_, rfl, .jump holdsTrue ms l1 l2 p.1 p.2 (.inl ⟨rfl, rfl⟩) h1 h2⟩
  | jumpIfFalse ms l1 l2 =>
    simp only [exec, execJumpIfFalse, jumpWhen]
    cases h : twoSources s.mem ms l1 l2 with
    | error t => exact ⟨_, rfl, .fault t (.inl (twoSources_error h))⟩
    | ok p =>
      obtain ⟨h1, h2⟩ := twoSources_ok_iff.mp h
      exact ⟨_, rfl, .jump holdsFalse ms l1 l2 p.1 p.2 (.inr ⟨rfl, rfl⟩) h1 h2⟩
  | halt ms => exact ⟨_, rfl, .halt ms rfl⟩
  | input ms l1 =>
    simp only [exec, execInput]
    cases h1 : destination s.mem l1 with
    | error t => exact ⟨_, rfl, .fault t (.inl ⟨l1, destination_error_iff.mp h1⟩)⟩
    | ok d =>
      cases hc : s.inPort with
      | none => exact ⟨_, rfl, .fault _ (.inr ⟨rfl, by decide, by simp, by simp⟩)⟩
      | some c =>
        cases hg : chanGet s.chans c with
        | none => exact ⟨_, by simp only [hg], .block ms l1 d c rfl h1 hc (chanGet_none_iff.mp hg)⟩
        | some p =>
          obtain ⟨rest, hq, hcs⟩ := chanGet_some_iff.mp (show chanGet s.chans c = some (p.1, p.2) from hg)
          refine ⟨((s.storeWord d p.1).setChans p.2).completeAt (s.ip + 2), by simp only [hg], ?_⟩
          rw [hcs]
          exact .input ms l1 d c p.1 rest rfl h1 hc hq
  | output ms l1 =>
    simp only [exec, execOutput]
    cases h1 : operand s.mem ms.mode1 l1 with
    | error t => exact ⟨_, rfl, .fault t (.inl ⟨l1, (operand_error h1).2⟩)⟩
    | ok v =>
      cases hc : s.outPort with
      | none => exact ⟨_, rfl, .log ms l1 v rfl h1 hc⟩
      | some c =>
        by_cases hf : chanFull s.cfg s.chans c = true
        · refine ⟨_, if_pos hf, .fault _ (.inr ⟨rfl, by decide, by simp, fun _ hn => ?_⟩)⟩
          rw [chanFull_iff, hn] at hf
          exact absurd hf (by simp)
        · exact ⟨_, if_neg hf, .put ms l1 v c rfl h1 hc (by simpa using hf)⟩

/-- An instruction that answers a next state had one of the effects. -/
theorem effect_of_exec {i : Instr} {s t : State} (h : exec i s = .next t) : Effect i s t := by
  obtain ⟨t', ht', he⟩ := exec_effect i s
  rw [ht', Host.Outcome.next.injEq] at h
  exact h ▸ he

/-- What fetching can report: an access outside memory or a malformed word (steps 1 to 3 of R103). -/
theorem fetchParams_error {m : Memory} {n : Nat} {a : Int} {t : Trap} (h : fetchParams m n a = .error t) :
    ∃ b : Int, t = outOfBounds b ∧ (b < 0 ∨ (m.size : Int) ≤ b) := by
  induction n generalizing a with
  | zero => simp [fetchParams] at h
  | succ n ih =>
    simp only [fetchParams] at h
    cases hw : memRead m a with
    | error t' =>
      rw [hw] at h
      obtain rfl : t' = t := by simpa using h
      exact ⟨a, memRead_error_iff.mp hw⟩
    | ok w =>
      rw [hw] at h
      cases hr : fetchParams m n (a + 1) with
      | error t' =>
        rw [hr] at h
        obtain rfl : t' = t := by simpa using h
        exact ih hr
      | ok ws => rw [hr] at h; simp at h

theorem fetchInstr_error {s : State} {p : Int} {t : Trap} (h : fetchInstr s.mem p = .error t) : t.Fits s := by
  have hm : malformed.Fits s := .inr ⟨rfl, by decide, by simp [malformed], by simp [malformed]⟩
  unfold fetchInstr at h
  cases hw : memRead s.mem p with
  | error t' =>
    rw [hw] at h
    obtain rfl : t' = t := by simpa using h
    exact .inl ⟨p, memRead_error_iff.mp hw⟩
  | ok w =>
    rw [hw] at h
    simp only at h
    cases hd : decodeWord w with
    | error e =>
      rw [hd] at h
      obtain rfl : malformed = t := by simpa using h
      exact hm
    | ok q =>
      rw [hd] at h
      simp only at h
      cases hp : fetchParams s.mem q.1.nparams (p + 1) with
      | error t' =>
        rw [hp] at h
        obtain rfl : t' = t := by simpa using h
        exact .inl (fetchParams_error hp)
      | ok ps =>
        rw [hp] at h
        simp only at h
        cases hq : decode (w :: ps) with
        | error e =>
          rw [hq] at h
          obtain rfl : malformed = t := by simpa using h
          exact hm
        | ok r => rw [hq] at h; simp at h

/-- Everything one step can do: nothing where none is enabled, a fault of the fetch, or an effect of the
instruction fetched. -/
inductive StepCase (s : State) : State → Prop where
  | idle (h : s.enabled = false) : StepCase s s
  | fetchFault (t : Trap) (h : s.enabled = true) (hf : fetchInstr s.mem s.ip = .error t) (fits : t.Fits s) :
      StepCase s (s.raise t)
  | ran (i : Instr) (t : State) (h : s.enabled = true) (hf : fetchInstr s.mem s.ip = .ok i) (he : Effect i s t) :
      StepCase s t

/-- Every step answers a next state, by one of the three cases. -/
theorem step_case (s : State) : ∃ t, step s = .next t ∧ StepCase s t := by
  unfold step
  cases hen : s.enabled with
  | false => exact ⟨s, rfl, .idle hen⟩
  | true =>
    cases hf : fetchInstr s.mem s.ip with
    | error t => exact ⟨_, rfl, .fetchFault t hen hf (fetchInstr_error hf)⟩
    | ok i =>
      obtain ⟨t, ht, he⟩ := exec_effect i s
      exact ⟨t, ht, .ran i t hen hf he⟩

/-- A step that answers a next state is one of the three cases. -/
theorem case_of_step {s t : State} (h : step s = .next t) : StepCase s t := by
  obtain ⟨t', ht', hc⟩ := step_case s
  rw [ht', Host.Outcome.next.injEq] at h
  exact h ▸ hc

end Sys2Proof.Machine
end

