-- ==== Sys2Proof/Laws/Network.lean ====
section
/-! SUPPORT. What the host remembers of a run, and that no step and no move of the host changes it. -/

namespace Sys2Proof.Machine

@[simp] theorem Network.remember_cfg (n : Network) : n.remember.cfg = n.cfg := rfl
@[simp] theorem Network.remember_cores (n : Network) : n.remember.cores = n.cores := rfl
@[simp] theorem Network.remember_chans (n : Network) : n.remember.chans = n.chans := rfl
@[simp] theorem Network.remember_hasStarted (n : Network) : n.remember.hasStarted = n.started := rfl
@[simp] theorem Network.remember_ended (n : Network) : n.remember.ended = n.outcome := rfl
@[simp] theorem Network.remember_coreAt (n : Network) (i : Nat) : n.remember.coreAt i = n.coreAt i := rfl
@[simp] theorem Network.remember_viewOf (n : Network) (c : CoreState) : n.remember.viewOf c = n.viewOf c := rfl

@[simp] theorem Network.remember_started (n : Network) : n.remember.started = n.started := by
  simp only [Network.started, Network.remember_hasStarted, Network.remember_cores]
  cases n.hasStarted <;> simp

/-- A remembered end is the end. -/
theorem Network.outcome_of_ended {n : Network} {o : RunOutcome} (h : n.ended = some o) : n.outcome = some o := by
  simp only [Network.outcome, h]

/-- Remembering changes no end. -/
theorem Network.remember_outcome {n : Network} {o : RunOutcome} (h : n.outcome = some o) :
    n.remember.outcome = some o :=
  Network.outcome_of_ended h

theorem Network.stepCore_remembers (n : Network) (i : Nat) :
    (n.stepCore i).ended = n.ended ∧ (n.stepCore i).hasStarted = n.hasStarted := by
  unfold Network.stepCore
  split <;> exact ⟨rfl, rfl⟩

/-- No move forgets what the host remembers. -/
theorem Network.move_remembers {n n' : Network} {m : HostMove} (h : n.move m = .ok n') :
    n'.ended = n.ended ∧ n'.hasStarted = n.hasStarted := by
  cases m with
  | construct program =>
    simp only [Network.move] at h
    split at h <;> cases h
    exact ⟨rfl, rfl⟩
  | wire i inPort outPort =>
    simp only [Network.move] at h
    split at h
    · cases h
    · split at h
      · cases h
      · split at h <;> cases h
        exact ⟨rfl, rfl⟩
  | seed c v =>
    simp only [Network.move] at h
    split at h
    · cases h
    · split at h
      · cases h
      · split at h <;> cases h
        exact ⟨rfl, rfl⟩
  | start => cases h; exact ⟨rfl, rfl⟩
  | step i =>
    simp only [Network.move] at h
    split at h <;> cases h
    exact n.stepCore_remembers i
  | destroy i =>
    simp only [Network.move] at h
    split at h
    · cases h
    · split at h <;> cases h
      exact ⟨rfl, rfl⟩

/-- Every move of the host remembers what was the case before it. -/
theorem Network.hostMove_remembers {n n' : Network} {m : HostMove} (h : n.hostMove m = .ok n') :
    n'.ended = n.outcome ∧ n'.hasStarted = n.started :=
  Network.move_remembers h

end Sys2Proof.Machine
end

