-- ==== Sys2Proof/Laws/PerInstr.lean ====
section
/-! SUPPORT. Statements made per instruction, one lemma per constructor. -/

namespace Sys2Proof.Laws.EncodedShape

/-- The encoded form of an instruction: `1 + n` words (R80, R85), the first a legal instruction word, which is
neither negative nor above 11199 (R97) and selects the instruction's operation (R82). -/
def Statement (i : Instr) : Prop :=
  (encode i).length = i.length ∧ ∃ w : Nat, (encode i).head? = some (w : Int) ∧ w ≤ 11199 ∧ w % 100 = i.opcode.code

theorem of_modes (i : Instr) (hl : (encode i).length = i.length) : Statement i := by
  refine ⟨hl, _, rfl, ?_⟩
  generalize i.opcode = op
  obtain ⟨m1, m2, m3⟩ := i.modes
  revert op m1 m2 m3
  intro op m1 m2 m3
  cases op <;> cases m1 <;> cases m2 <;> cases m3 <;> decide

theorem add (ms : Modes) (lit1 lit2 lit3 : Int) : Statement (.add ms lit1 lit2 lit3) := of_modes _ rfl
theorem multiply (ms : Modes) (lit1 lit2 lit3 : Int) : Statement (.multiply ms lit1 lit2 lit3) := of_modes _ rfl
theorem input (ms : Modes) (lit1 : Int) : Statement (.input ms lit1) := of_modes _ rfl
theorem output (ms : Modes) (lit1 : Int) : Statement (.output ms lit1) := of_modes _ rfl
theorem jumpIfTrue (ms : Modes) (lit1 lit2 : Int) : Statement (.jumpIfTrue ms lit1 lit2) := of_modes _ rfl
theorem jumpIfFalse (ms : Modes) (lit1 lit2 : Int) : Statement (.jumpIfFalse ms lit1 lit2) := of_modes _ rfl
theorem lessThan (ms : Modes) (lit1 lit2 lit3 : Int) : Statement (.lessThan ms lit1 lit2 lit3) := of_modes _ rfl
theorem equals (ms : Modes) (lit1 lit2 lit3 : Int) : Statement (.equals ms lit1 lit2 lit3) := of_modes _ rfl
theorem halt (ms : Modes) : Statement (.halt ms) := of_modes _ rfl

end Sys2Proof.Laws.EncodedShape
end

