-- ==== Sys2Proof/Tests/Slice0.lean ====
section
/-! SUPPORT. Tests on single steps and small states, their expected results from spec/95_test_vectors.md or from the
rule named, and a witness for the hypotheses of every statement that has some. -/

namespace Sys2Proof.Tests

open Sys2Proof Sys2Proof.Machine

/-! ### The states the tests start from (the conventions of spec/95_test_vectors.md) -/

/-- All three modes POSITION. -/
def ppp : Modes := ⟨.position, .position, .position⟩

/-- The first two modes IMMEDIATE. -/
def iip : Modes := ⟨.immediate, .immediate, .position⟩

/-- A started core that holds the words. -/
def holding (ws : List Int) : State :=
  { State.reset with mem := Memory.ofWords ws, status := .running }

/-- The core wired to channel 0 for input, which holds the values. -/
def fed (ws vs : List Int) : State :=
  { holding ws with inPort := some 0, chans := Channels.setQueue [] 0 vs }

/-- The core on a build of 64-bit words. -/
def on64 (s : State) : State :=
  { s with cfg := { Config.standard with wordBits := some 64 } }

/-- The core with channel 1 wired for output on a build whose channels hold one value. -/
def shallow (s : State) : State :=
  { s with cfg := { Config.standard with channelDepth := some 1 }, outPort := some 1 }

/-- The word at an address after one step, none where it cannot be read. -/
def wordAfter (s : State) (a : Int) : Option Int :=
  (memRead s.advance.mem a).toOption

/-- The status, `ip` and fault record after one step. -/
def endAfter (s : State) : Status × Int × Option FaultRecord :=
  (s.advance.status, s.advance.ip, s.advance.fault)

/-- What a faulting step ends in. -/
def faultedAt (p : Int) (k : FaultKind) (addr : Option Int) : Status × Int × Option FaultRecord :=
  (.faulted, p, some ⟨k, p, addr⟩)

/-! ### Well-formedness: its one check is the range of the literals (R6, R80) -/

theorem test_wf_literal_out_of_range :
    Instr.wf (on64 State.reset).cfg (.add ppp 9223372036854775808 0 0) = false := by decide

theorem test_wf_most_negative_literal :
    Instr.wf (on64 State.reset).cfg (.output iip (-9223372036854775808)) = true := by decide

theorem test_wf_unbounded :
    Instr.wf Config.standard (.output iip 9223372036854775808) = true := by decide

/-! ### Decoding: words written out from R81 to R85 and R97 -/

theorem test_decode_add : decode [10001, 5, 6, 7] = .ok (.add ⟨.position, .position, .immediate⟩ 5 6 7, []) := rfl
theorem test_decode_multiply : decode [1002, 4, 3, 4] = .ok (.multiply ⟨.position, .immediate, .position⟩ 4 3 4, []) :=
  rfl
theorem test_decode_input : decode [103, 3] = .ok (.input ⟨.immediate, .position, .position⟩ 3, []) := rfl
theorem test_decode_output : decode [104, -5] = .ok (.output ⟨.immediate, .position, .position⟩ (-5), []) := rfl
theorem test_decode_jumpIfTrue : decode [105, 1, 3] = .ok (.jumpIfTrue ⟨.immediate, .position, .position⟩ 1 3, []) :=
  rfl
theorem test_decode_jumpIfFalse : decode [1006, 22, 16] = .ok (.jumpIfFalse ⟨.position, .immediate, .position⟩ 22 16, [])
    := rfl
theorem test_decode_lessThan : decode [1107, -1, 0, 5] = .ok (.lessThan iip (-1) 0 5, []) := rfl
theorem test_decode_equals : decode [8, 5, 5, 6] = .ok (.equals ppp 5 5 6, []) := rfl
theorem test_decode_halt : decode [1099, 7] = .ok (.halt ⟨.position, .immediate, .position⟩, [7]) := rfl

/-- X1 to X7, X16, X17 and H4: illegal words. -/
theorem test_decode_refuses :
    ([0, 100, 98, 9, -1, -99, 299, 203, 20099, 100099] : List Int).all (fun w => !(decodeWord w).isOk) = true := by
  decide

/-- The words of R100's table encode the instructions they stand for. -/
theorem test_encode : encode (.lessThan ⟨.position, .immediate, .position⟩ 19 10 20) = [1007, 19, 10, 20] := rfl

/-! ### The words of the opcode table, run as the first instruction after reset -/

theorem test_table_word_decodes : decodeTableWord 8 99 = some (.halt ppp) := by decide

theorem test_table_word_runs : step (State.reset.withFetchWord 8 99) =
    exec (.halt ppp) (State.reset.withFetchWord 8 99) := rfl

theorem test_table_word_adds : wordAfter (State.reset.withFetchWord 16 1) 0 = some 2 := by decide

/-! ### ADD and MULTIPLY -/

/-- A3: a source and the destination are the same word. -/
theorem test_add_same_word : wordAfter (holding [1, 5, 5, 5, 99, 21]) 5 = some 42 := by decide

/-- A4w: one past the largest 64-bit word. -/
theorem test_add_overflows :
    endAfter (on64 (holding [1101, 9223372036854775807, 1, 5, 99, 0])) = faultedAt 0 .wordOverflow none := by decide

/-- M1. -/
theorem test_multiply_signed : wordAfter (holding [1102, -3, 4, 5, 99, 0]) 5 = some (-12) := by decide

/-- M3: the product is exact. -/
theorem test_multiply_exact :
    wordAfter (holding [1102, 1099511627776, 1099511627776, 5, 99, 0]) 5 = some 1208925819614629174706176 := by decide

/-! ### LESS-THAN and EQUALS -/

/-- L2 and L3: the signed order. -/
theorem test_lessThan_signed :
    (wordAfter (holding [1107, -1, 0, 5, 99, 9]) 5, wordAfter (holding [1107, 0, -1, 5, 99, 9]) 5) = (some 1, some 0) := by
  decide

/-- L1: equal is not less. -/
theorem test_lessThan_equal : wordAfter (holding [1107, 3, 3, 5, 99, 9]) 5 = some 0 := by decide

/-- E3: the word at the address is compared, and the destination is the third literal. -/
theorem test_equals_same_word : wordAfter (holding [8, 5, 5, 6, 99, 3, 9]) 6 = some 1 := by decide

/-- E2. -/
theorem test_equals_signed : wordAfter (holding [1108, 4, -4, 5, 99, 9]) 5 = some 0 := by decide

/-! ### JUMP-IF-TRUE, JUMP-IF-FALSE and HALT -/

/-- J3: a negative condition is true. -/
theorem test_jumpIfTrue_negative : endAfter (holding [1105, -1, 4, 0, 99]) = (.running, 4, none) := by decide

/-- J6: the jump writes any target, and the next fetch faults. -/
theorem test_jumpIfTrue_out_of_bounds :
    endAfter (holding [1105, 1, -1, 99]).advance = faultedAt (-1) .outOfBoundsAccess (some (-1)) := by decide

/-- F3: both operands POSITION. -/
theorem test_jumpIfFalse_position : endAfter (holding [6, 5, 6, 99, 0, 0, 4]) = (.running, 4, none) := by decide

/-- F2: not taken. -/
theorem test_jumpIfFalse_not_taken : endAfter (holding [1106, 7, 4, 99, 0]) = (.running, 3, none) := by decide

/-- H3: the mode digits are ignored and `ip` stays. -/
theorem test_halt : (endAfter (holding [11199]), (holding [11199]).advance.finished) = ((.halted, 0, none), true) := by
  decide

/-! ### INPUT and OUTPUT -/

/-- I10, its first step: the oldest value is taken. -/
theorem test_input_takes_oldest :
    (wordAfter (fed [3, 5, 3, 6, 99, 0, 0] [1, 2, 3]) 5,
      Channels.queue (fed [3, 5, 3, 6, 99, 0, 0] [1, 2, 3]).advance.chans 0) = (some 1, [2, 3]) := by decide

/-- I2 and I3: an empty channel blocks, no channel is `StarvedInput`. -/
theorem test_input_blocks_or_starves :
    (endAfter (fed [3, 3, 99, 0] []), endAfter (holding [3, 3, 99, 0])) =
      ((.blockedOnInput, 0, none), faultedAt 0 .starvedInput none) := by decide

/-- O2: the output of an unwired core goes to `outLog`. -/
theorem test_output_unwired : (holding [4, 3, 99, 77]).advance.outLog = [77] := by decide

/-- O4: the second put finds the channel full. -/
theorem test_output_overflows :
    (endAfter (shallow (holding [104, 1, 104, 2, 99])).advance,
      (shallow (holding [104, 1, 104, 2, 99])).advance.advance.outLog) =
      (faultedAt 2 .channelOverflow none, [1]) := by decide

/-! ### Fetch -/

/-- X15: the parameter fetch comes before the operand read. -/
theorem test_fetch_truncated : endAfter (holding [1, 9, 9]) = faultedAt 0 .outOfBoundsAccess (some 3) := by decide

/-- X8: a core with no memory. -/
theorem test_fetch_no_memory : endAfter (holding []) = faultedAt 0 .outOfBoundsAccess (some 0) := by decide

/-- X4. -/
theorem test_fetch_negative_word : endAfter (holding [-1]) = faultedAt 0 .malformedInstruction none := by decide

/-! ### The loader, the assembler and the network -/

/-- The text of T-SRC-5's program, broken across two lines after a comma (R98, R99). -/
theorem test_parse :
    parseProgram Config.standard "3,9,8, 9,10,9,\n4,9,99,-1,8".toList = .ok [3, 9, 8, 9, 10, 9, 4, 9, 99, -1, 8] := by
  decide

/-- A trailing comma leaves an empty field (R99). -/
theorem test_parse_trailing_comma : parseProgram Config.standard "1,2,".toList = .error .notAProgramText := by decide

/-- P1 (R100), with its labels. -/
theorem test_assemble :
    assemble [.input (.label "n"), .label "loop", .output (.pos (.label "n")),
      .add (.pos (.label "n")) (.imm (.int (-1))) (.label "n"), .jt (.pos (.label "n")) (.imm (.label "loop")), .halt,
      .label "n", .word [.int 0]] = some [3, 12, 4, 12, 1001, 12, -1, 12, 1005, 12, 2, 99, 0] := by decide

/-- P1's third line as R100 writes it. -/
theorem test_text : (AsmLine.add (.pos (.int 12)) (.imm (.int (-1))) (.int 12)).text = "ADD [12], #-1, [12]" := by decide

/-- NET2's seeding (R193) and its ring of one core (R192). -/
theorem test_ring_of_one :
    (buildNetwork Config.standard [99] [3] true).toOption.map
        (fun n => (Channels.queue n.chans 0, (n.coreAt 0).map (fun c => (c.inPort, c.outPort)))) =
      some ([3, 0], some (some 0, some 0)) := by decide

/-- A repeated phase setting is refused (R193). -/
theorem test_repeated_phase : buildNetwork Config.standard [99] [5, 5] true = .error .repeatedPhase := by decide

/-! ### Witnesses: concrete inputs that meet all the hypotheses of each statement -/

/-- `IN [4]; HALT` with an unused word and the word written. -/
def readsOne : List Int := [3, 4, 99, 0, 0]

/-- A core blocked at its INPUT whose channel has since received 42 and 43. -/
def resumable : State :=
  { fed readsOne [42, 43] with status := .blockedOnInput }

/-- A running core with no fault, on a build of unbounded channels, meets the invariant if its words do. -/
theorem inv_of_running {s : State} (hr : s.status = .running) (hf : s.finished = false) (hn : s.fault = none)
    (hd : s.cfg.channelDepth = none) (ha : s.cfg.admitted = true) (hm : s.mem.wf) (hc : Channels.wf s.chans)
    (hw : s.WordsInRange) : s.Inv where
  admitted := ha
  memWf := hm
  chansWf := hc
  finished := by rw [hf, hr]; rfl
  faulted := by rw [hn, hr]; rfl
  record r h := by rw [hn] at h; cases h
  waits h := by rw [hr] at h; cases h
  inRange := hw
  depth k h := by rw [hd] at h; cases h

/-- The invariant holds of a running 64-bit core whose sum is the largest word. -/
theorem witness_inv_running : (on64 (fed [1101, 9223372036854775806, 1, 5, 99, 0] [7])).Inv :=
  inv_of_running rfl rfl rfl rfl (by decide) (by decide) (by decide) ⟨by decide, by decide, by decide⟩

/-- The invariant holds of a blocked core that can resume. -/
theorem witness_inv_blocked : resumable.Inv where
  admitted := rfl
  memWf := by decide
  chansWf := by decide
  finished := rfl
  faulted := rfl
  record r h := by cases h
  waits _ := ⟨ppp, 4, 4, rfl, rfl, rfl⟩
  inRange := ⟨by decide, by decide, by decide⟩
  depth k h := by cases h

theorem witness_DecodedWordsAreTheEncoding : decode [11101, 1, -2, 3, 99] =
    .ok (.add ⟨.immediate, .immediate, .immediate⟩ 1 (-2) 3, [99]) := rfl

theorem witness_StepRunsTheDecodedInstruction : (holding [1101, 2, 3, 5, 99, 0]).enabled = true ∧
    decode (wordsFrom (holding [1101, 2, 3, 5, 99, 0]).mem longestInstr 0) = .ok (.add iip 2 3 5, []) := ⟨rfl, rfl⟩

/-- A HALT at the last word of memory, with no word after it. -/
theorem witness_StepRunsTheDecodedInstruction_last_word : (holding [99]).enabled = true ∧
    decode (wordsFrom (holding [99]).mem longestInstr 0) = .ok (.halt ppp, []) := ⟨rfl, rfl⟩

theorem witness_DisabledStepChangesNothing : State.reset.enabled = false ∧
    { fed readsOne [] with status := .blockedOnInput : State }.enabled = false := ⟨rfl, rfl⟩

theorem witness_StepHasFourOutcomes : (holding [99]).enabled = true ∧ resumable.enabled = true := ⟨rfl, rfl⟩

theorem witness_FetchOutsideMemoryFaults : (holding []).enabled = true ∧ ((holding []).mem.size : Int) ≤ (holding []).ip ∧
    { holding [99] with ip := -1 : State }.enabled = true ∧ { holding [99] with ip := -1 : State }.ip < 0 ∧
    { holding [99] with ip := 1 : State }.enabled = true ∧ ((holding [99]).mem.size : Int) ≤ 1 := by decide

/-- The bounds of each clause: a negative word, one above 99999 alone, the opcodes beside the legal ones, and a mode
digit of 2 and of 9 at each of the three places. -/
theorem witness_IllegalWordFaults :
    ∀ w ∈ ([-1, 100099, 0, 9, 98, 299, 999, 2099, 9099, 20099, 90099] : List Int), (holding [w]).enabled = true ∧
      memRead (holding [w]).mem (holding [w]).ip = .ok w ∧
      (w < 0 ∨ 99999 < w ∨ w % 100 ∉ ([1, 2, 3, 4, 5, 6, 7, 8, 99] : List Int) ∨
        2 ≤ w / 100 % 10 ∨ 2 ≤ w / 1000 % 10 ∨ 2 ≤ w / 10000 % 10) := by decide

theorem witness_TruncatedInstructionFaults : (holding [1, 0, 0]).enabled = true ∧
    memRead (holding [1, 0, 0]).mem 0 = .ok 1 ∧ decodeWord 1 = .ok (.add, ppp) ∧
    ((holding [1, 0, 0]).mem.size : Int) ≤ 0 + Opcode.nparams .add := by decide

theorem witness_FaultsArePreciseAndFinal :
    step (holding [98]) = .next (holding [98]).advance ∧ (holding [98]).status ≠ .faulted ∧
      (holding [98]).advance.status = .faulted := ⟨rfl, by decide⟩

theorem witness_StepKeepsSizeAndWiring : step (fed readsOne [42]) = .next (fed readsOne [42]).advance := rfl

theorem witness_StatusMovesAsTheTableAllows : resumable.Inv ∧ step resumable = .next resumable.advance :=
  ⟨witness_inv_blocked, rfl⟩

theorem witness_BlockedInputResumes : resumable.Inv ∧ resumable.status = .blockedOnInput ∧ resumable.inPort = some 0 ∧
    Channels.queue resumable.chans 0 = [42, 43] ∧ fetchInstr resumable.mem resumable.ip = .ok (.input ppp 4) ∧
    destination resumable.mem 4 = .ok 4 := ⟨witness_inv_blocked, rfl, rfl, rfl, rfl, rfl⟩

theorem witness_StepKeepsTheInvariant :
    (on64 (fed [1101, 9223372036854775806, 1, 5, 99, 0] [7])).Inv ∧
      step (on64 (fed [1101, 9223372036854775806, 1, 5, 99, 0] [7])) =
        .next (on64 (fed [1101, 9223372036854775806, 1, 5, 99, 0] [7])).advance :=
  ⟨witness_inv_running, rfl⟩

/-- A program as long as the build allows; one word more is refused. -/
theorem witness_NewCoreIsAtReset :
    newCore { Config.standard with memCapacity := some 2 } [1, 0] = .ok (CoreState.fresh (Memory.ofWords [1, 0])) ∧
      newCore { Config.standard with memCapacity := some 1 } [1, 0] = .error .programTooLong := by decide

/-- Two states that differ on a channel that is no port of the core. -/
theorem witness_StepReadsOnlyItsOwnInputs :
    let s := fed readsOne [42]
    let s' := { s with chans := chanPut s.chans 5 1 }
    s.toCoreState = s'.toCoreState ∧ s.cfg = s'.cfg ∧ s.chans ≠ s'.chans ∧
      (∀ c, s.inPort = some c → Channels.queue s.chans c = Channels.queue s'.chans c) ∧
      (∀ c, s.outPort = some c → chanFull s.cfg s.chans c = chanFull s'.cfg s'.chans c) ∧
      step s = .next s.advance ∧ step s' = .next s'.advance := by
  refine ⟨rfl, rfl, by decide, ?_, ?_, rfl, rfl⟩
  · intro c h; cases h; decide
  · intro c h; cases h

/-- The two clauses of a write at the bounds of their ranges, on a memory of two words. -/
theorem witness_MemWriteThenRead : ((-1 : Int) < 0 ∨ ((Memory.ofWords [7, 8]).size : Int) ≤ -1) ∧
    ((2 : Int) < 0 ∨ ((Memory.ofWords [7, 8]).size : Int) ≤ 2) ∧
    (0 ≤ (0 : Int) ∧ (0 : Int) < (Memory.ofWords [7, 8]).size) ∧
    (0 ≤ (1 : Int) ∧ (1 : Int) < (Memory.ofWords [7, 8]).size) := by decide

/-- The destination at both ends of memory, on a 64-bit build whose largest and smallest words are the sum (A10w) and
the product. -/
theorem witness_AddWritesTheSum :
    let s := on64 (holding [1101, -9223372036854775807, -1, 0, 99])
    operand s.mem iip.mode1 (-9223372036854775807) = .ok (-9223372036854775807) ∧
      operand s.mem iip.mode2 (-1) = .ok (-1) ∧ (0 ≤ (0 : Int) ∧ (0 : Int) < s.mem.size) ∧
      (0 ≤ (4 : Int) ∧ (4 : Int) < s.mem.size) ∧ s.cfg.inRange (-9223372036854775807 + -1) = true := by decide

theorem witness_MultiplyWritesTheProduct :
    let s := on64 (holding [1102, 9223372036854775807, 1, 0, 99])
    operand s.mem iip.mode1 9223372036854775807 = .ok 9223372036854775807 ∧ operand s.mem iip.mode2 1 = .ok 1 ∧
      (0 ≤ (0 : Int) ∧ (0 : Int) < s.mem.size) ∧ (0 ≤ (4 : Int) ∧ (4 : Int) < s.mem.size) ∧
      s.cfg.inRange (9223372036854775807 * 1) = true := by decide

/-- L4 and E3: both sources POSITION. -/
theorem witness_LessThanWritesOneOrZero :
    let s := holding [7, 5, 6, 7, 99, 2, 10, 9]
    operand s.mem ppp.mode1 5 = .ok 2 ∧ operand s.mem ppp.mode2 6 = .ok 10 ∧ 0 ≤ (7 : Int) ∧ (7 : Int) < s.mem.size := by
  decide

theorem witness_EqualsWritesOneOrZero :
    let s := holding [8, 5, 5, 6, 99, 3, 9]
    operand s.mem ppp.mode1 5 = .ok 3 ∧ operand s.mem ppp.mode2 5 = .ok 3 ∧ 0 ≤ (6 : Int) ∧ (6 : Int) < s.mem.size := by
  decide

/-- A4w and A9w for the sum, and a product one past each end of the range. -/
theorem witness_OverflowFaultsAndWritesNothing :
    let s := on64 (holding [1101, 9223372036854775807, 1, 4, 99])
    s.cfg.wordBits = some 64 ∧ operand s.mem iip.mode1 9223372036854775807 = .ok 9223372036854775807 ∧
      operand s.mem iip.mode2 1 = .ok 1 ∧ operand s.mem iip.mode1 (-9223372036854775808) = .ok (-9223372036854775808) ∧
      operand s.mem iip.mode2 (-1) = .ok (-1) ∧ operand s.mem iip.mode1 3 = .ok 3 ∧
      operand s.mem iip.mode2 (-3074457345618258603) = .ok (-3074457345618258603) ∧ 0 ≤ (4 : Int) ∧
      (4 : Int) < s.mem.size ∧
      (2 ^ (64 - 1) - 1 : Int) < 9223372036854775807 + 1 ∧ (-9223372036854775808 + -1 : Int) < -(2 ^ (64 - 1)) ∧
      (2 ^ (64 - 1) - 1 : Int) < -9223372036854775808 * -1 ∧
      (3 * -3074457345618258603 : Int) < -(2 ^ (64 - 1)) := by decide

/-- X12, X10, X11 and X13: each operand in turn just below and just past memory, the ones before it readable. -/
theorem witness_ArithmeticFaultOrder :
    let s := holding [1, 0, 0, 0, 99]
    (ppp.mode1 = .position ∧ ((-1 : Int) < 0 ∨ (s.mem.size : Int) ≤ -1)) ∧
      (ppp.mode1 = .position ∧ ((5 : Int) < 0 ∨ (s.mem.size : Int) ≤ 5)) ∧
      (operand s.mem ppp.mode1 0 = .ok 1 ∧ ppp.mode2 = .position ∧ ((5 : Int) < 0 ∨ (s.mem.size : Int) ≤ 5)) ∧
      (operand s.mem ppp.mode1 0 = .ok 1 ∧ operand s.mem ppp.mode2 4 = .ok 99 ∧
        ((-1 : Int) < 0 ∨ (s.mem.size : Int) ≤ -1) ∧ ((5 : Int) < 0 ∨ (s.mem.size : Int) ≤ 5)) := by decide

/-- A next state that completes and one that faults, for the frame of the arithmetic family. -/
theorem witness_ArithmeticFrame :
    exec (.add iip 2 3 5) (holding [1101, 2, 3, 5, 99, 0]) = .next (holding [1101, 2, 3, 5, 99, 0]).advance ∧
      exec (.add iip 1 1 5) (holding [1101, 1, 1, 5, 99]) = .next (holding [1101, 1, 1, 5, 99]).advance ∧
      destination (holding [1101, 2, 3, 5, 99, 0]).mem 5 = .ok 5 := ⟨rfl, rfl, rfl⟩

/-- J4: both operands POSITION; it serves both jumps. -/
theorem witness_JumpIfTrueSetsIp :
    operand (holding [5, 5, 6, 0, 99, 1, 4]).mem ppp.mode1 5 = .ok 1 ∧
      operand (holding [5, 5, 6, 0, 99, 1, 4]).mem ppp.mode2 6 = .ok 4 := by decide

theorem witness_JumpIfFalseSetsIp :
    operand (holding [6, 5, 6, 99, 0, 0, 4]).mem ppp.mode1 5 = .ok 0 ∧
      operand (holding [6, 5, 6, 99, 0, 0, 4]).mem ppp.mode2 6 = .ok 4 := by decide

theorem witness_JumpFaultOrder :
    let s := holding [5, 0, 3]
    (ppp.mode1 = .position ∧ ((3 : Int) < 0 ∨ (s.mem.size : Int) ≤ 3)) ∧
      (ppp.mode1 = .position ∧ ((-1 : Int) < 0 ∨ (s.mem.size : Int) ≤ -1)) ∧
      (operand s.mem ppp.mode1 0 = .ok 5 ∧ ppp.mode2 = .position ∧ ((3 : Int) < 0 ∨ (s.mem.size : Int) ≤ 3)) := by decide

/-- A taken jump of each kind, and a target just below memory, just past it (J5, J6) and on an illegal word. -/
theorem witness_JumpTargetIsCheckedAtTheNextFetch :
    let s := holding [1105, 1, 3, 98]
    operand s.mem iip.mode1 1 = .ok 1 ∧ operand s.mem iip.mode1 0 = .ok 0 ∧ operand s.mem iip.mode2 3 = .ok 3 ∧
      operand s.mem iip.mode2 4 = .ok 4 ∧ operand s.mem iip.mode2 (-1) = .ok (-1) ∧
      ((s.mem.size : Int) ≤ 4 ∧ (-1 : Int) < 0) ∧ memRead s.mem 3 = .ok 98 ∧
      decodeWord 98 = .error .unknownOpcode := by decide

theorem witness_HaltStopsTheCore : (holding [99]).advance.status = .halted := by decide

theorem witness_ControlFrame :
    exec (.jumpIfTrue iip 5 4) (holding [1105, 5, 4, 0, 99]) = .next (holding [1105, 5, 4, 0, 99]).advance ∧
      exec (.halt ppp) (holding [99]) = .next (holding [99]).advance := ⟨rfl, rfl⟩

/-- A completed instruction, one that blocks and one that faults. -/
theorem witness_NextIpTable :
    exec (.input ppp 4) (fed readsOne [42]) = .next (fed readsOne [42]).advance ∧
      (fed readsOne [42]).advance.status = .running ∧
      exec (.input ppp 4) (fed readsOne []) = .next (fed readsOne []).advance ∧
      (fed readsOne []).advance.status = .blockedOnInput ∧
      exec (.input ppp 4) (holding readsOne) = .next (holding readsOne).advance ∧
      (holding readsOne).advance.status = .faulted := ⟨rfl, rfl, rfl, rfl, rfl, rfl⟩

/-- As in T-SRC-4: the sum is written where the next instruction starts, at the last word of memory. -/
theorem witness_WrittenWordIsFetchedNext :
    let s := holding [1101, 98, 1, 4, 33]
    operand s.mem iip.mode1 98 = .ok 98 ∧ operand s.mem iip.mode2 1 = .ok 1 ∧ (4 : Int) = s.ip + 4 ∧ (0 : Int) ≤ 4 ∧
      (4 : Int) < s.mem.size ∧ s.cfg.inRange (98 + 1) = true ∧ (98 + 1 : Int) = instrWord .halt ppp := by decide

/-- I1, and I7 with the destination at address 0. -/
theorem witness_InputTakesTheOldestValue :
    let s := fed [3, 3, 99, 0] [42]
    (0 ≤ (3 : Int) ∧ (3 : Int) < s.mem.size) ∧ (0 ≤ (0 : Int) ∧ (0 : Int) < s.mem.size) ∧ s.inPort = some 0 ∧
      Channels.queue s.chans 0 = 42 :: [] := by decide

theorem witness_InputStarvesOrBlocks :
    0 ≤ (3 : Int) ∧ (3 : Int) < (holding [3, 3, 99, 0]).mem.size ∧ (holding [3, 3, 99, 0]).inPort = none ∧
      (fed [3, 3, 99, 0] []).inPort = some 0 ∧ Channels.queue (fed [3, 3, 99, 0] []).chans 0 = [] := by decide

theorem witness_InputChecksItsDestinationFirst :
    ((3 : Int) < 0 ∨ ((holding [3, 3, 99]).mem.size : Int) ≤ 3) ∧
      ((-1 : Int) < 0 ∨ ((holding [3, 3, 99]).mem.size : Int) ≤ -1) := by decide

/-- The source readable; no channel wired; a channel of depth 1 wired that holds no value. -/
theorem witness_OutputPutsAndLogs :
    operand (holding [4, 3, 99, 77]).mem ppp.mode1 3 = .ok 77 ∧ (holding [4, 3, 99, 77]).outPort = none ∧
      (shallow (holding [4, 3, 99, 77])).outPort = some 1 ∧
      (shallow (holding [4, 3, 99, 77])).cfg.channelDepth ≠
        some (Channels.queue (shallow (holding [4, 3, 99, 77])).chans 1).length := by decide

theorem witness_OutputSourceFaults :
    ppp.mode1 = .position ∧ ((3 : Int) < 0 ∨ ((holding [4, 3, 99]).mem.size : Int) ≤ 3) ∧
      ((-1 : Int) < 0 ∨ ((holding [4, 3, 99]).mem.size : Int) ≤ -1) := by decide

/-- O4 after its first OUTPUT; and a host that has put one value on a channel of depth 1. -/
theorem witness_FullChannelOverflows :
    let s := (shallow (holding [104, 1, 104, 2, 99])).advance
    let n : Network := { Network.empty s.cfg with chans := chanPut [] 0 5 }
    s.cfg.channelDepth = some 1 ∧ operand s.mem iip.mode1 2 = .ok 2 ∧ s.outPort = some 1 ∧
      (Channels.queue s.chans 1).length = 1 ∧ n.cfg.channelDepth = some 1 ∧ n.started = false ∧
      n.cfg.inRange 6 = true ∧ (Channels.queue n.chans 0).length = 1 := by decide

/-- A core wired to itself, with an older value waiting and with none. -/
theorem witness_SelfLoopReadsBackInOrder :
    (CoreState.fresh (Memory.ofWords [99])).status = .ready ∧
    ∀ vs ∈ ([[], [9]] : List (List Int)), let s := { fed [104, 7, 3, 4, 99] vs with outPort := some 0 }
      s.inPort = some 0 ∧ s.outPort = some 0 ∧ operand s.mem iip.mode1 7 = .ok 7 ∧
        s.cfg.channelDepth ≠ some (Channels.queue s.chans 0).length ∧ 0 ≤ (4 : Int) ∧ (4 : Int) < s.mem.size := by decide

/-- T-SRC-8: 5 and then 7 are put, and 5 is taken. -/
theorem witness_ChannelsAreFifo :
    chanGet (chanPut (chanPut [] 0 5) 0 7) 0 = some (5, Channels.setQueue [] 0 [7]) := by decide

theorem witness_InputFrame :
    exec (.input ppp 4) (fed readsOne [42]) = .next (fed readsOne [42]).advance ∧
      destination (fed readsOne [42]).mem 4 = .ok 4 := ⟨rfl, rfl⟩

theorem witness_OutputFrame :
    exec (.output ⟨.immediate, .position, .position⟩ 1) (shallow (holding [104, 1, 99])) =
      .next (shallow (holding [104, 1, 99])).advance := rfl

/-- An OUTPUT that logs, an INPUT that blocks and a HALT. -/
theorem witness_OnlyTheseEvents :
    exec (.output ppp 3) (holding [4, 3, 99, 77]) = .next (holding [4, 3, 99, 77]).advance ∧
      (holding [4, 3, 99, 77]).advance.outLog ≠ (holding [4, 3, 99, 77]).outLog ∧
      exec (.input ppp 4) (fed readsOne []) = .next (fed readsOne []).advance ∧
      (fed readsOne []).advance.status = .blockedOnInput ∧
      exec (.halt ppp) (holding [99]) = .next (holding [99]).advance ∧ (holding [99]).advance.status = .halted ∧
      (holding [99]).advance.finished ≠ (holding [99]).finished :=
  ⟨rfl, by decide, rfl, rfl, rfl, rfl, by decide⟩

/-! ### Witnesses over networks -/

/-- One core of a line: `IN [5]; OUT [5]; HALT`, running. -/
def relay (inPort outPort : Nat) : CoreState :=
  { CoreState.fresh (Memory.ofWords [3, 5, 4, 5, 99, 0]) with
    status := .running, inPort := some inPort, outPort := some outPort }

/-- A line of two such cores, 7 on the first channel and 8 on the second. -/
def relayLine : Network :=
  { Network.empty Config.standard with
    cores := [some (relay 0 1), some (relay 1 2)], chans := chanPut (chanPut [] 0 7) 1 8 }

/-- The cores of the line. -/
theorem relayLine_coreAt {i : Nat} {c : CoreState} (h : relayLine.coreAt i = some c) :
    i < 2 ∧ c = relay i (i + 1) := by
  match i with
  | 0 => exact ⟨by decide, (Option.some.inj h).symm⟩
  | 1 => exact ⟨by decide, (Option.some.inj h).symm⟩
  | n + 2 => cases h

theorem witness_network_inv : relayLine.Inv where
  wired i j c c' hij hi hj := by
    obtain ⟨-, rfl⟩ := relayLine_coreAt hi
    obtain ⟨-, rfl⟩ := relayLine_coreAt hj
    refine ⟨fun p hp hq => hij ?_, fun p hp hq => hij ?_⟩
    · exact Option.some.inj (hp.trans hq.symm)
    · exact Nat.succ.inj (Option.some.inj (hp.trans hq.symm))
  admitted := rfl
  chansWf := by decide
  chansInRange := by decide
  depth k h := by cases h
  cores i c h := by
    obtain ⟨-, rfl⟩ := relayLine_coreAt h
    have hm : (Memory.ofWords [3, 5, 4, 5, 99, 0]).wf := by decide
    have hc : Channels.wf relayLine.chans := by decide
    exact inv_of_running rfl rfl rfl rfl rfl hm hc ⟨by intro _ _; rfl, by intro _ _ _ _; rfl, by intro _ _; rfl⟩
  endsStarted h := by cases h
  onlyCompleteHasResult o h := by cases h

theorem witness_NetworkStepTouchesOneCore : relayLine.coreAt 0 = some (relay 0 1) ∧ (relay 0 1).inPort ≠ some 2 ∧
    (relay 0 1).outPort ≠ some 2 := by decide

theorem witness_HostMovesKeepTheInvariant :
    relayLine.Inv ∧ relayLine.hostMove (.step 1) = .ok (relayLine.remember.stepCore 1) := ⟨witness_network_inv, by decide⟩

/-- Two cores in a line, and in a ring with a negative phase setting. -/
theorem witness_BuiltNetworkIsWiredAndSeeded :
    (buildNetwork Config.standard [99] [1, 2] false).toOption.isSome = true ∧
      (buildNetwork Config.standard [99] [-1, 0] true).toOption.isSome = true := by decide

theorem witness_BuiltNetworkMeetsTheInvariant :
    (on64 State.reset).cfg.admitted = true ∧
      (buildNetwork (on64 State.reset).cfg [99] [1, 2] true).toOption.isSome = true := by decide

/-- Two cores that wait for each other, as at the end of NET3. -/
def waiting : Network :=
  { Network.empty Config.standard with
    cores := [some { relay 0 1 with status := .blockedOnInput }, some { relay 1 0 with status := .blockedOnInput }] }

/-- A core that has faulted at the word 98. -/
def faultedCore : CoreState :=
  { CoreState.fresh (Memory.ofWords [98]) with
    status := .faulted, fault := some ⟨.malformedInstruction, 0, none⟩, outPort := some 1 }

/-- A line whose first core has faulted and whose second still runs. -/
def halfFaulted : Network :=
  { Network.empty Config.standard with cores := [some faultedCore, some (relay 1 2)] }

/-- Its cores. -/
theorem halfFaulted_coreAt {i : Nat} {c : CoreState} (h : halfFaulted.coreAt i = some c) :
    (i = 0 ∧ c = faultedCore) ∨ (i = 1 ∧ c = relay 1 2) := by
  match i with
  | 0 => exact .inl ⟨rfl, (Option.some.inj h).symm⟩
  | 1 => exact .inr ⟨rfl, (Option.some.inj h).symm⟩
  | n + 2 => cases h

/-- The invariant holds of a network one of whose cores has faulted. -/
theorem witness_network_inv_faulted : halfFaulted.Inv where
  wired i j c c' hij hi hj := by
    rcases halfFaulted_coreAt hi with ⟨rfl, rfl⟩ | ⟨rfl, rfl⟩ <;>
      rcases halfFaulted_coreAt hj with ⟨rfl, rfl⟩ | ⟨rfl, rfl⟩
    · exact absurd rfl hij
    · exact ⟨fun p hp => (by cases hp), fun p hp hq => (by cases hp; cases hq)⟩
    · exact ⟨fun p _ hq => (by cases hq), fun p hp hq => (by cases hp; cases hq)⟩
    · exact absurd rfl hij
  admitted := rfl
  chansWf := by decide
  chansInRange := by decide
  depth k h := by cases h
  cores i c h := by
    have hc : Channels.wf halfFaulted.chans := by decide
    rcases halfFaulted_coreAt h with ⟨-, rfl⟩ | ⟨-, rfl⟩
    · exact {
        admitted := rfl
        memWf := by decide
        chansWf := hc
        finished := rfl
        faulted := rfl
        record := fun r hr => by
          cases hr
          exact ⟨rfl, rfl, fun a ha => (by cases ha), fun hk => (by cases hk), fun hk => (by cases hk)⟩
        waits := fun hs => by cases hs
        inRange := ⟨by intro _ _; rfl, by intro _ _ _ _; rfl, by intro _ _; rfl⟩
        depth := fun k hk => by cases hk }
    · have hm : (Memory.ofWords [3, 5, 4, 5, 99, 0]).wf := by decide
      exact inv_of_running rfl rfl rfl rfl rfl hm hc ⟨by intro _ _; rfl, by intro _ _ _ _; rfl, by intro _ _; rfl⟩
  endsStarted h := by cases h
  onlyCompleteHasResult o h := by cases h

/-- No core can step; a deadlocked run whose first core is destroyed, and a faulted one whose second is. -/
theorem witness_DeadlockIsForEver : waiting.someEnabled = false ∧
    waiting.runEnd = some .deadlocked ∧ (waiting.hostMove (.destroy 0)).toOption.isSome = true ∧
    halfFaulted.runEnd = some .faulted ∧ (halfFaulted.hostMove (.destroy 1)).toOption.isSome = true ∧
    RunEnd.faulted ≠ .complete ∧ halfFaulted.Inv :=
  ⟨by decide, by decide, by decide, by decide, by decide, by decide, witness_network_inv_faulted⟩

/-- R186: destroying the faulted core and then the other, which still runs, leaves a faulted run with no result. -/
theorem test_destroying_keeps_the_end :
    (halfFaulted.hostMoves [.destroy 0, .destroy 1]).toOption.map (fun n => (n.runEnd, n.result)) =
      some (some .faulted, none) := by decide

/-- R193: after the cores of an ended run are destroyed the host still puts nothing onto a channel. -/
theorem test_no_seed_after_destroy :
    halfFaulted.hostMoves [.destroy 0, .destroy 1, .seed 0 5] = .error .seedAfterStart := by decide

theorem witness_StepsOfTwoCoresCommute : relayLine.Inv ∧ relayLine.cfg.channelDepth = none ∧ (0 : Nat) ≠ 1 ∧
    relayLine.coreAt 0 = some (relay 0 1) ∧ relayLine.coreAt 1 = some (relay 1 2) ∧
    (relayLine.viewOf (relay 0 1)).enabled = true ∧ (relayLine.viewOf (relay 1 2)).enabled = true ∧
    (relayLine.viewOf (relay 0 1)).advance.status ≠ .blockedOnInput ∧
    (relayLine.viewOf (relay 1 2)).advance.status ≠ .blockedOnInput := ⟨witness_network_inv, by decide⟩

/-- The line runs to its complete end on two schedules. -/
theorem witness_CompleteRunsAgree : relayLine.Inv ∧ relayLine.cfg.channelDepth = none ∧
    (relayLine.runSchedule [0, 0, 0, 1, 1, 1]).runEnd = some .complete ∧
    (relayLine.runSchedule [1, 0, 1, 1, 0, 0]).runEnd.isSome = true := ⟨witness_network_inv, by decide⟩

/-- The relay as a network of one core: its result is its phase setting. -/
theorem witness_BoundedSearchFindsTheMaximum :
    maxSignalWithin 3 Config.standard [3, 5, 4, 5, 99, 0] [7] false = some 7 := by decide

/-! ### Witnesses over texts -/

theorem witness_DigitsReadInBaseTen : ∀ x ∈ ([0, 9] : List Nat), x < 10 := by decide

theorem witness_LoaderRefusesBadFields :
    "+2".toList ∈ splitCommas (joinLines "1,+2".toList) ∧ fieldValue "+2".toList = none ∧ ',' ≠ '\r' := by decide

end Sys2Proof.Tests
end

section
/-! ### Every step keeps the invariant of a core and its channels (O16)

The invariant has two halves. The data half says that the build can hold memory, the channels and the log; each update
of the state keeps it. The control half says how status, flag and fault record agree; it follows from the status a step
enters. -/

namespace Sys2Proof.Machine

/-! #### What a build can hold -/

/-- Memory in canonical form, every word in range (R22, D34). -/
structure Memory.FitsBuild (m : Memory) (cfg : Config) : Prop where
  wf : m.wf
  inRange : ∀ e ∈ m.cells, cfg.inRange e.2 = true

/-- The channels in canonical form, every value in range and no channel over its depth (R30, R159, D34). -/
structure Channels.FitsBuild (cs : Channels) (cfg : Config) : Prop where
  wf : Channels.wf cs
  inRange : ∀ e ∈ cs, ∀ v ∈ e.2, cfg.inRange v = true
  depth : ∀ k, cfg.channelDepth = some k → ∀ e ∈ cs, e.2.length ≤ k

/-- The data half of `State.Inv`: its clauses that do not mention `ip`, the status, the flag or the fault record. -/
structure State.DataFits (s : State) : Prop where
  admitted : s.cfg.admitted = true
  mem : s.mem.FitsBuild s.cfg
  chans : Channels.FitsBuild s.chans s.cfg
  outLog : ∀ v ∈ s.outLog, s.cfg.inRange v = true

theorem State.Inv.dataFits {s : State} (h : s.Inv) : s.DataFits where
  admitted := h.admitted
  mem := ⟨h.memWf, h.inRange.mem⟩
  chans := ⟨h.chansWf, h.inRange.chans, h.depth⟩
  outLog := h.inRange.outLog

/-- A word of at least 64 bits holds 0 and 1, so a comparison never overflows (R6, R116). -/
theorem inRange_zero_one_of_admitted {cfg : Config} (h : cfg.admitted = true) :
    cfg.inRange 0 = true ∧ cfg.inRange 1 = true := by
  cases hw : cfg.wordBits with
  | none => simp [Config.inRange, hw]
  | some n =>
    have hn : 64 ≤ n := by simpa [Config.admitted, hw] using h
    have hpow : (2 : Int) ^ 1 ≤ 2 ^ (n - 1) := pow_le_pow_right₀ (by decide) (by omega)
    simp only [Config.inRange, hw, Bool.and_eq_true, decide_eq_true_eq]
    omega

/-! #### Memory -/

section
variable {m : Memory} {cfg : Config}

/-- A read answers a word in range: a cell's, or the unlisted word 0. -/
theorem Memory.FitsBuild.memRead_inRange (h : m.FitsBuild cfg) (h0 : cfg.inRange 0 = true) {a v : Int}
    (hr : memRead m a = .ok v) : cfg.inRange v = true := by
  obtain ⟨d, -, -, rfl⟩ := memRead_ok_iff.mp hr
  rcases m.word_mem_or d with hd | hd
  · rw [hd]; exact h0
  · exact h.inRange _ hd

theorem Memory.FitsBuild.store (h : m.FitsBuild cfg) (a : Nat) {v : Int} (hv : cfg.inRange v = true) :
    (m.store a v).FitsBuild cfg where
  wf := Memory.store_wf h.wf a v
  inRange e he := by
    rcases Memory.mem_store_cells he with rfl | he
    · exact hv
    · exact h.inRange e he

end

/-! #### Channels -/

section
variable {cs : Channels} {cfg : Config}

theorem Channels.FitsBuild.queue_inRange (h : Channels.FitsBuild cs cfg) (c : Nat) :
    ∀ v ∈ Channels.queue cs c, cfg.inRange v = true := by
  rcases Channels.queue_mem_or cs c with hq | hq
  · simp [hq]
  · exact h.inRange _ hq

theorem Channels.FitsBuild.queue_length_le (h : Channels.FitsBuild cs cfg) (c : Nat) {k : Nat}
    (hk : cfg.channelDepth = some k) : (Channels.queue cs c).length ≤ k := by
  rcases Channels.queue_mem_or cs c with hq | hq
  · simp [hq]
  · exact h.depth k hk _ hq

theorem Channels.FitsBuild.setQueue (h : Channels.FitsBuild cs cfg) (c : Nat) {q : List Int}
    (hq : ∀ v ∈ q, cfg.inRange v = true) (hl : ∀ k, cfg.channelDepth = some k → q.length ≤ k) :
    Channels.FitsBuild (Channels.setQueue cs c q) cfg where
  wf := Channels.setQueue_wf h.wf c q
  inRange e he := by
    rcases Channels.mem_setQueue he with rfl | he
    · exact hq
    · exact h.inRange e he
  depth k hk e he := by
    rcases Channels.mem_setQueue he with rfl | he
    · exact hl k hk
    · exact h.depth k hk e he

/-- Taking the oldest value off a channel (R157). -/
theorem Channels.FitsBuild.take (h : Channels.FitsBuild cs cfg) {c : Nat} {v : Int} {rest : List Int}
    (hq : Channels.queue cs c = v :: rest) : Channels.FitsBuild (Channels.setQueue cs c rest) cfg := by
  refine h.setQueue c (fun w hw => h.queue_inRange c w (by simp [hq, hw])) fun k hk => ?_
  have hlen := h.queue_length_le c hk
  rw [hq, List.length_cons] at hlen
  omega

/-- Putting a value onto a channel that is not full (R156, R159). -/
theorem Channels.FitsBuild.put (h : Channels.FitsBuild cs cfg) {c : Nat} {v : Int} (hv : cfg.inRange v = true)
    (hf : chanFull cfg cs c = false) : Channels.FitsBuild (chanPut cs c v) cfg := by
  refine h.setQueue c (fun w hw => ?_) fun k hk => ?_
  · rcases List.mem_append.mp hw with hw | hw
    · exact h.queue_inRange c w hw
    · rw [List.mem_singleton.mp hw]; exact hv
  · have hle := h.queue_length_le c hk
    have hne : k ≠ (Channels.queue cs c).length := fun hkq =>
      absurd (chanFull_iff.mpr (hkq ▸ hk)) (by simp [hf])
    rw [List.length_append, List.length_singleton]
    omega

end

/-! #### The updates of the state keep the data half -/

section
variable {s : State}

theorem State.DataFits.completeAt (h : s.DataFits) (t : Int) : (s.completeAt t).DataFits :=
  ⟨h.admitted, h.mem, h.chans, h.outLog⟩

theorem State.DataFits.raise (h : s.DataFits) (t : Trap) : (s.raise t).DataFits :=
  ⟨h.admitted, h.mem, h.chans, h.outLog⟩

theorem State.DataFits.blockOnInput (h : s.DataFits) : s.blockOnInput.DataFits :=
  ⟨h.admitted, h.mem, h.chans, h.outLog⟩

theorem State.DataFits.haltNow (h : s.DataFits) : s.haltNow.DataFits :=
  ⟨h.admitted, h.mem, h.chans, h.outLog⟩

theorem State.DataFits.storeWord (h : s.DataFits) (d : Nat) {v : Int} (hv : s.cfg.inRange v = true) :
    (s.storeWord d v).DataFits :=
  ⟨h.admitted, h.mem.store d hv, h.chans, h.outLog⟩

theorem State.DataFits.setChans (h : s.DataFits) {cs : Channels} (hc : Channels.FitsBuild cs s.cfg) :
    (s.setChans cs).DataFits :=
  ⟨h.admitted, h.mem, hc, h.outLog⟩

theorem State.DataFits.logOutput (h : s.DataFits) {v : Int} (hv : s.cfg.inRange v = true) :
    (s.logOutput v).DataFits where
  admitted := h.admitted
  mem := h.mem
  chans := h.chans
  outLog w hw := by
    rcases List.mem_append.mp hw with hw | hw
    · exact h.outLog w hw
    · rw [List.mem_singleton.mp hw]; exact hv

end

/-! #### The values an instruction computes with are in range -/

/-- Every parameter word is a word of memory (R80). -/
theorem fetchParams_reads {m : Memory} {n : Nat} {a : Int} {ws : List Int} (h : fetchParams m n a = .ok ws) :
    ∀ w ∈ ws, ∃ b, memRead m b = .ok w := by
  induction n generalizing a ws with
  | zero =>
    obtain rfl : [] = ws := by simpa [fetchParams] using h
    simp
  | succ n ih =>
    unfold fetchParams at h
    split at h
    · cases h
    · rename_i w hw
      split at h
      · cases h
      · rename_i ws' hws
        cases h
        intro x hx
        rcases List.mem_cons.mp hx with rfl | hx
        · exact ⟨a, hw⟩
        · exact ih hws x hx

/-- The literals of an instruction that decodes are among its parameter words (R80). -/
theorem decode_lits_subset {w : Int} {ps rest : List Int} {i : Instr} (h : decode (w :: ps) = .ok (i, rest)) :
    i.lits ⊆ ps := by
  simp only [decode] at h
  split at h
  · cases h
  · obtain ⟨-, -, rfl⟩ := assembleInstr_spec h
    exact List.subset_append_left _ _

/-- Every literal of a fetched instruction is a word of memory (R80). -/
theorem fetchInstr_lits_reads {m : Memory} {p : Int} {i : Instr} (h : fetchInstr m p = .ok i) :
    ∀ l ∈ i.lits, ∃ b, memRead m b = .ok l := by
  unfold fetchInstr at h
  split at h
  · cases h
  · split at h
    · cases h
    · split at h
      · cases h
      · rename_i ps hps
        split at h
        · cases h
        · rename_i j rest hd
          cases h
          exact fun l hl => fetchParams_reads hps l (decode_lits_subset hd hl)

/-- The value of an operand is in range: its literal is a fetched word, and what it points at is a word of memory. -/
theorem State.DataFits.operand_inRange {s : State} (h : s.DataFits) {i : Instr} {p : Int}
    (hf : fetchInstr s.mem p = .ok i) {l v : Int} (hl : l ∈ i.lits) {md : Mode} (ho : operand s.mem md l = .ok v) :
    s.cfg.inRange v = true := by
  obtain ⟨h0, -⟩ := inRange_zero_one_of_admitted h.admitted
  cases md with
  | position => exact h.mem.memRead_inRange h0 ho
  | immediate =>
    obtain rfl : l = v := by simpa [operand] using ho
    obtain ⟨b, hb⟩ := fetchInstr_lits_reads hf l hl
    exact h.mem.memRead_inRange h0 hb

/-- The result of an operation that raises only `WordOverflow` is in range (R111 to R116). -/
theorem OnlyOverflows.result_inRange {cfg : Config} {f : Int → Int → Except Trap Int} (hf : OnlyOverflows cfg f)
    (ha : cfg.admitted = true) {a b r : Int} (hr : f a b = .ok r) : cfg.inRange r = true := by
  obtain ⟨h0, h1⟩ := inRange_zero_one_of_admitted ha
  exact (hf a b).1 r hr h0 h1

/-- Everything an instruction can do keeps the data half. -/
theorem State.DataFits.of_effect {s t : State} (h : s.DataFits) {i : Instr} (hf : fetchInstr s.mem s.ip = .ok i)
    (he : Effect i s t) : t.DataFits := by
  cases he with
  | fault tr fits => exact h.raise tr
  | write f ms l1 l2 l3 a b d r op h1 h2 h3 hr =>
    have hof : OnlyOverflows s.cfg f := by
      rcases op with ⟨-, rfl⟩ | ⟨-, rfl⟩ | ⟨-, rfl⟩ | ⟨-, rfl⟩
      · exact addWords_onlyOverflows _
      · exact multiplyWords_onlyOverflows _
      · exact lessThanWords_onlyOverflows _
      · exact equalsWords_onlyOverflows _
    exact (h.storeWord d (hof.result_inRange h.admitted hr)).completeAt _
  | jump test ms l1 l2 c t op h1 h2 => exact h.completeAt _
  | halt ms op => exact h.haltNow
  | block ms l1 d c op h1 hc he => exact h.blockOnInput
  | input ms l1 d c v rest op h1 hc hq =>
    have hv : s.cfg.inRange v = true := h.chans.queue_inRange c v (by simp [hq])
    exact ((h.storeWord d hv).setChans (h.chans.take hq)).completeAt _
  | log ms l1 v op h1 hc =>
    have hv : s.cfg.inRange v = true := h.operand_inRange hf (by simp [op, Instr.lits]) h1
    exact (h.logOutput hv).completeAt _
  | put ms l1 v c op h1 hc hfull =>
    have hv : s.cfg.inRange v = true := h.operand_inRange hf (by simp [op, Instr.lits]) h1
    exact ((h.setChans (h.chans.put hv hfull)).logOutput hv).completeAt _

/-! #### The control half, by the status that a step enters -/

section
variable {s : State}

/-- A core with an enabled step has neither halted nor faulted (R25, R26, R104). -/
theorem State.Inv.flags_of_enabled (h : s.Inv) (hen : s.enabled = true) : s.finished = false ∧ s.fault = none := by
  have hfin := h.finished
  have hfau := h.faulted
  cases hs : s.status with
  | running | blockedOnInput => simpa [hs] using And.intro hfin hfau
  | ready | halted | faulted => simp [State.enabled, hs] at hen

/-- The two halves make the invariant. -/
theorem State.DataFits.inv (h : s.DataFits) (finished : s.finished = decide (s.status = .halted))
    (faulted : s.fault.isSome = decide (s.status = .faulted)) (record : ∀ r, s.fault = some r → r.Fits s)
    (waits : s.status = .blockedOnInput → s.WaitsAtInput) : s.Inv where
  admitted := h.admitted
  memWf := h.mem.wf
  chansWf := h.chans.wf
  finished := finished
  faulted := faulted
  record := record
  waits := waits
  inRange := ⟨h.mem.inRange, h.chans.inRange, h.outLog⟩
  depth := h.chans.depth

/-- A running core with neither flag nor record meets the invariant if its data do. -/
theorem State.DataFits.inv_of_running (h : s.DataFits) (hs : s.status = .running) (hfin : s.finished = false)
    (hfau : s.fault = none) : s.Inv :=
  h.inv (by simp [hs, hfin]) (by simp [hs, hfau]) (by simp [hfau]) (by simp [hs])

/-- The record of a trap that fits the state fits the faulted state (R181, R182). -/
theorem Trap.Fits.record {t : Trap} (h : t.Fits s) : FaultRecord.Fits ⟨t.kind, s.ip, t.addr⟩ (s.raise t) := by
  rcases h with ⟨a, rfl, hout⟩ | ⟨haddr, hkind, hword, hdepth⟩
  · exact {
      atIp := rfl
      address := rfl
      outside := by rintro b ⟨⟩; exact hout
      finiteWord := nofun
      finiteDepth := nofun }
  · exact {
      atIp := rfl
      address := by simp [haddr, hkind]
      outside := by simp [haddr]
      finiteWord := hword
      finiteDepth := hdepth }

theorem State.Inv.raise (h : s.Inv) (hen : s.enabled = true) {t : Trap} (ht : t.Fits s) : (s.raise t).Inv := by
  obtain ⟨hfin, -⟩ := h.flags_of_enabled hen
  refine (h.dataFits.raise t).inv (by simp [hfin]) (by simp) (fun r hr => ?_) (by simp)
  obtain rfl : _ = r := by simpa using hr
  exact ht.record

theorem State.Inv.haltNow (h : s.Inv) (hen : s.enabled = true) : s.haltNow.Inv := by
  obtain ⟨-, hfau⟩ := h.flags_of_enabled hen
  exact h.dataFits.haltNow.inv (by simp) (by simp [hfau]) (by simp [hfau]) (by simp)

theorem State.Inv.blockOnInput (h : s.Inv) (hen : s.enabled = true) (hw : s.WaitsAtInput) : s.blockOnInput.Inv := by
  obtain ⟨hfin, hfau⟩ := h.flags_of_enabled hen
  exact h.dataFits.blockOnInput.inv (by simp [hfin]) (by simp [hfau]) (by simp [hfau])
    (fun _ => hw)

/-- Everything the fetched instruction can do keeps the invariant. -/
theorem State.Inv.of_effect {t : State} (h : s.Inv) (hen : s.enabled = true) {i : Instr}
    (hf : fetchInstr s.mem s.ip = .ok i) (he : Effect i s t) : t.Inv := by
  have hdata : t.DataFits := h.dataFits.of_effect hf he
  obtain ⟨hfin, hfau⟩ := h.flags_of_enabled hen
  cases he with
  | fault tr fits => exact h.raise hen fits
  | halt ms op => exact h.haltNow hen
  | block ms l1 d c op h1 hc he =>
    exact h.blockOnInput hen ⟨ms, l1, d, op ▸ hf, h1, by simp [hc]⟩
  | write | jump | input | log | put => exact hdata.inv_of_running rfl hfin hfau

/-- Every case of a step keeps the invariant. -/
theorem State.Inv.of_stepCase {t : State} (h : s.Inv) (hc : StepCase s t) : t.Inv := by
  cases hc with
  | idle hen => exact h
  | fetchFault tr hen hf fits => exact h.raise hen fits
  | ran i t hen hf he => exact h.of_effect hen hf he

end

/-- Settles O16: a step is idle, a fetch fault or an effect of the fetched instruction, and each keeps both halves of
the invariant. -/
theorem stepKeepsTheInvariant : Obligations.StepKeepsTheInvariant :=
  fun _ _ hs hstep => hs.of_stepCase (case_of_step hstep)

end Sys2Proof.Machine
end

section
/-! ### One step of one core: its frame, its events, its status and the state after reset (O13 to O15, O17, O34, O48) -/

namespace Sys2Proof.Machine

/-! #### What an effect leaves unchanged, and which instruction it comes from -/

section
variable {i : Instr} {s t : State}

/-- No instruction changes the length of memory, the ports or the build (R22, R27, R52). -/
theorem Effect.keeps_size_and_wiring (he : Effect i s t) :
    t.mem.size = s.mem.size ∧ t.inPort = s.inPort ∧ t.outPort = s.outPort ∧ t.cfg = s.cfg := by
  cases he with
  | write | input => simp
  | fault | jump | halt | block | log | put => exact ⟨rfl, rfl, rfl, rfl⟩

theorem StepCase.keeps_size_and_wiring (hc : StepCase s t) :
    t.mem.size = s.mem.size ∧ t.inPort = s.inPort ∧ t.outPort = s.outPort ∧ t.cfg = s.cfg := by
  cases hc with
  | idle | fetchFault => exact ⟨rfl, rfl, rfl, rfl⟩
  | ran i t hen hf he => exact he.keeps_size_and_wiring

/-- The log changes only by an OUTPUT, by the value of its source (R154). -/
theorem Effect.output_of_outLog_ne (he : Effect i s t) (h : t.outLog ≠ s.outLog) :
    ∃ ms l1 v, i = .output ms l1 ∧ operand s.mem ms.mode1 l1 = .ok v ∧ t.outLog = s.outLog ++ [v] := by
  cases he with
  | log ms l1 v op h1 | put ms l1 v c op h1 => exact ⟨ms, l1, v, op, h1, rfl⟩
  | fault | write | jump | halt | block | input => exact absurd rfl h

/-- Only INPUT blocks (R152). -/
theorem Effect.input_of_blocked (he : Effect i s t) (h : t.status = .blockedOnInput) : ∃ ms l1, i = .input ms l1 := by
  cases he with
  | block ms l1 d c op => exact ⟨ms, l1, op⟩
  | fault | write | jump | halt | input | log | put => cases h

/-- Only HALT halts (R25). -/
theorem Effect.halt_of_halted (he : Effect i s t) (h : t.status = .halted) : ∃ ms, i = .halt ms := by
  cases he with
  | halt ms op => exact ⟨ms, op⟩
  | fault | write | jump | block | input | log | put => cases h

/-- Only HALT changes the flag (R25). -/
theorem Effect.halt_of_finished_ne (he : Effect i s t) (h : t.finished ≠ s.finished) : ∃ ms, i = .halt ms := by
  cases he with
  | halt ms op => exact ⟨ms, op⟩
  | fault | write | jump | block | input | log | put => exact absurd rfl h

theorem Effect.status_ne_ready (he : Effect i s t) : t.status ≠ .ready := by
  cases he <;> nofun

end

/-- Settles O13, by the cases of a step. -/
theorem stepKeepsSizeAndWiring : Obligations.StepKeepsSizeAndWiring :=
  fun _ _ hstep => (case_of_step hstep).keeps_size_and_wiring

/-- Settles O48: each event is that of one effect, and each effect names its instruction. -/
theorem onlyTheseEvents : Obligations.OnlyTheseEvents := fun _ _ _ hexec =>
  have he := effect_of_exec hexec
  ⟨he.output_of_outLog_ne, he.input_of_blocked, he.halt_of_halted, he.halt_of_finished_ne⟩

/-! #### Cores with no enabled step -/

/-- A core with no enabled step changes nothing (R104, R107). -/
theorem step_of_disabled {s : State} (h : s.enabled = false) : step s = .next s := by
  simp [step, h]

theorem State.disabled_of_halted {s : State} (h : s.status = .halted) : s.enabled = false := by
  simp [State.enabled, h]

/-- Settles O34: HALT is `State.haltNow`, and a halted core has no enabled step. -/
theorem haltStopsTheCore : Obligations.HaltStopsTheCore := fun _ _ =>
  ⟨rfl, fun _ ht => step_of_disabled (State.disabled_of_halted ht)⟩

/-! #### A blocked core -/

section
variable {s : State}

/-- A blocked core has an enabled step exactly when a value waits on its input channel (R104). -/
theorem State.enabled_iff_of_blocked (hs : s.status = .blockedOnInput) :
    s.enabled = true ↔ ∃ c v q, s.inPort = some c ∧ Channels.queue s.chans c = v :: q := by
  cases hc : s.inPort with
  | none => simp [State.enabled, State.inputWaiting, hs, hc]
  | some c => cases hq : Channels.queue s.chans c <;> simp [State.enabled, State.inputWaiting, chanEmpty, hs, hc, hq]

/-- The INPUT at `ip` completes when its destination is in bounds and a value waits (R150). -/
theorem step_input_completes {ms : Modes} {l1 v : Int} {d c : Nat} {q : List Int} (hen : s.enabled = true)
    (hf : fetchInstr s.mem s.ip = .ok (.input ms l1)) (hd : destination s.mem l1 = .ok d) (hc : s.inPort = some c)
    (hq : Channels.queue s.chans c = v :: q) :
    step s = .next (((s.storeWord d v).setChans (Channels.setQueue s.chans c q)).completeAt (s.ip + 2)) := by
  have hget : chanGet s.chans c = some (v, Channels.setQueue s.chans c q) := chanGet_some_iff.mpr ⟨q, hq, rfl⟩
  simp [step, hen, hf, exec, execInput, hd, hc, hget]

/-- From `BlockedOnInput` a core that meets the invariant stays blocked or runs on: it cannot fault (R24, R152). -/
theorem State.Inv.status_of_blocked (h : s.Inv) (hs : s.status = .blockedOnInput) {t : State} (ht : step s = .next t) :
    t.status = .blockedOnInput ∨ t.status = .running := by
  cases hen : s.enabled with
  | false =>
    cases (step_of_disabled hen).symm.trans ht
    exact .inl hs
  | true =>
    obtain ⟨ms, l1, d, hf, hd, -⟩ := h.waits hs
    obtain ⟨c, v, q, hc, hq⟩ := (State.enabled_iff_of_blocked hs).mp hen
    cases (step_input_completes hen hf hd hc hq).symm.trans ht
    exact .inr rfl

end

/-- Settles O15: the invariant gives the INPUT at `ip` with its destination in bounds, and that INPUT completes. -/
theorem blockedInputResumes : Obligations.BlockedInputResumes := by
  intro s c v q hs hblocked hc hq
  obtain ⟨ms, l1, d, hf, hd, -⟩ := hs.waits hblocked
  have hen : s.enabled = true := (State.enabled_iff_of_blocked hblocked).mpr ⟨c, v, q, hc, hq⟩
  refine ⟨_, step_input_completes hen hf hd hc hq, rfl, rfl, by simp, ⟨ms, l1, d, hf, hd⟩, ?_⟩
  intro ms' l1' d' hf' hd'
  cases hf.symm.trans hf'
  cases hd.symm.trans hd'
  obtain ⟨-, hlt⟩ := destination_ok_iff.mp hd
  have hread (a : Int) : memRead (s.mem.store d v) a = if a = d then .ok v else memRead s.mem a :=
    memRead_store hlt v a
  exact ⟨by simp [hread], fun a ha => by simp [hread, ha]⟩

/-- No step returns a started core to `Ready` (R24). -/
theorem StepCase.status_ne_ready {s t : State} (hc : StepCase s t) (hs : s.status ≠ .ready) : t.status ≠ .ready := by
  cases hc with
  | idle => exact hs
  | fetchFault => nofun
  | ran i t hen hf he => exact he.status_ne_ready

/-- From `Running` the table allows every status but `Ready` (R24). -/
theorem Status.mayStepTo_of_running {x : Status} (h : x ≠ .ready) : Status.mayStepTo .running x = true := by
  cases x with
  | ready => exact absurd rfl h
  | running | blockedOnInput | halted | faulted => rfl

/-- Settles O14, by the status before the step: a running core never becomes `Ready`, a blocked one stays so or
completes its INPUT, and every other has no enabled step. -/
theorem statusMovesAsTheTableAllows : Obligations.StatusMovesAsTheTableAllows := by
  intro s t hs hstep
  cases hst : s.status with
  | running => exact Status.mayStepTo_of_running ((case_of_step hstep).status_ne_ready (by simp [hst]))
  | blockedOnInput => rcases hs.status_of_blocked hst hstep with ht | ht <;> rw [ht] <;> rfl
  | ready | halted | faulted =>
    have hdis : s.enabled = false := by simp [State.enabled, hst]
    cases (step_of_disabled hdis).symm.trans hstep
    rw [hst]
    rfl

/-! #### A core in `Ready` -/

section
variable {s : State}

/-- A core in `Ready` with neither flag nor record meets the invariant if its data do. -/
theorem State.DataFits.inv_of_ready (h : s.DataFits) (hs : s.status = .ready) (hfin : s.finished = false)
    (hfau : s.fault = none) : s.Inv :=
  h.inv (by simp [hs, hfin]) (by simp [hs, hfau]) (by simp [hfau]) (by simp [hs])

theorem State.Inv.flags_of_ready (h : s.Inv) (hs : s.status = .ready) : s.finished = false ∧ s.fault = none := by
  have hfin := h.finished
  have hfau := h.faulted
  simpa [hs] using And.intro hfin hfau

end

theorem Channels.FitsBuild.nil (cfg : Config) : Channels.FitsBuild [] cfg :=
  ⟨⟨.nil, nofun⟩, nofun, fun _ _ => nofun⟩

/-- A loaded program whose words are in range fits the build (R99, R230). -/
theorem Memory.FitsBuild.ofWords {cfg : Config} {program : List Int} (h : program.all cfg.inRange = true) :
    (Memory.ofWords program).FitsBuild cfg where
  wf := Memory.ofWords_wf program
  inRange _ he := List.all_eq_true.mp h _ (Sparse.mem_ofListFrom _ he).2.2.2

/-- A core as `new(program)` builds it meets the invariant (R230). -/
theorem State.fresh_inv {cfg : Config} {program : List Int} {cs : Channels} (ha : cfg.admitted = true)
    (hp : program.all cfg.inRange = true) (hc : Channels.FitsBuild cs cfg) :
    State.Inv ⟨CoreState.fresh (Memory.ofWords program), cfg, cs⟩ :=
  State.DataFits.inv_of_ready ⟨ha, .ofWords hp, hc, nofun⟩ rfl rfl rfl

/-- Settles O17: the state after reset is a core of no program on the default build, no channel holding a value. -/
theorem resetMeetsTheInvariant : Obligations.ResetMeetsTheInvariant :=
  State.fresh_inv (cfg := .standard) (program := []) rfl rfl (.nil _)

end Sys2Proof.Machine
end

section
/-! ### Every move of the host keeps the invariant of a network (O50)

A move replaces cores or channels. It keeps the invariant when each new core meets the invariant of a core, the new
channels fit the build and no two cores share a port; the moves are taken one by one. -/

namespace Sys2Proof.Machine

/-! #### The host's changes to one core -/

section
variable {s : State}

/-- A core keeps its invariant when the channels are replaced by others that fit the build. -/
theorem State.Inv.setChans (h : s.Inv) {cs : Channels} (hc : Channels.FitsBuild cs s.cfg) : (s.setChans cs).Inv :=
  (h.dataFits.setChans hc).inv h.finished h.faulted (fun r hr => { h.record r hr with }) h.waits

/-- Wiring a core in `Ready` keeps its invariant (R27). -/
theorem State.Inv.rewire (h : s.Inv) (hs : s.status = .ready) (p q : Option Nat) :
    State.Inv { s with inPort := p, outPort := q } := by
  obtain ⟨hfin, hfau⟩ := h.flags_of_ready hs
  exact State.DataFits.inv_of_ready { h.dataFits with } hs hfin hfau

/-- Starting a core keeps its invariant (R24, R194). -/
theorem State.Inv.start (h : s.Inv) : State.Inv { s with toCoreState := s.toCoreState.start } := by
  unfold CoreState.start
  split
  · rename_i hs
    obtain ⟨hfin, hfau⟩ := h.flags_of_ready hs
    exact State.DataFits.inv_of_running { h.dataFits with } rfl hfin hfau
  · exact h

/-- `State.advance` is the state that the step answers (R107). -/
theorem step_eq_advance (s : State) : step s = .next s.advance := by
  obtain ⟨t, ht, -⟩ := step_case s
  simp [State.advance, ht]

theorem State.Inv.advance (h : s.Inv) : s.advance.Inv :=
  stepKeepsTheInvariant s _ h (step_eq_advance s)

theorem State.advance_keeps_wiring (s : State) :
    s.advance.inPort = s.inPort ∧ s.advance.outPort = s.outPort ∧ s.advance.cfg = s.cfg :=
  (stepKeepsSizeAndWiring s _ (step_eq_advance s)).2

end

theorem CoreState.start_keeps_ports (c : CoreState) : c.start.inPort = c.inPort ∧ c.start.outPort = c.outPort := by
  unfold CoreState.start
  split <;> exact ⟨rfl, rfl⟩

/-- `new(program)` builds the core of a program that is not too long and whose words are in range (R6, R230). -/
theorem newCore_ok_iff {cfg : Config} {program : List Int} {c : CoreState} :
    newCore cfg program = .ok c ↔ fitsCapacity cfg program = true ∧ program.all cfg.inRange = true ∧
      c = CoreState.fresh (Memory.ofWords program) := by
  unfold newCore
  cases fitsCapacity cfg program <;> cases program.all cfg.inRange <;> simp [eq_comm]

/-- A core can be wired only in `Ready` (R27). -/
theorem CoreState.wire_ok_iff {c c' : CoreState} {p q : Option Nat} :
    c.wire p q = .ok c' ↔ c.status = .ready ∧ c' = { c with inPort := p, outPort := q } := by
  unfold CoreState.wire
  split
  · rename_i h; simp [h, eq_comm]
  · rename_i h; simp [h]

/-! #### The cores of a network after each change -/

section
variable {n : Network} {i j : Nat} {c c' : CoreState}

theorem Network.coreAt_eq_some_iff : n.coreAt i = some c ↔ n.cores[i]? = some (some c) := by
  simp [Network.coreAt, Option.join_eq_some_iff]

/-- Core `i` replaced: a core is the new one or one of the others. -/
theorem Network.coreAt_setCore_cases (h : (n.setCore i c).coreAt j = some c') :
    (j = i ∧ c' = c) ∨ (j ≠ i ∧ n.coreAt j = some c') := by
  simp only [Network.coreAt_eq_some_iff, Network.setCore, List.getElem?_set] at h ⊢
  split at h
  · rename_i hij
    split at h
    · exact .inl ⟨hij.symm, by simpa [eq_comm] using h⟩
    · cases h
  · rename_i hij
    exact .inr ⟨Ne.symm hij, h⟩

/-- A core constructed: a core is the new one or one of the others (R191). -/
theorem Network.coreAt_construct_cases (h : Network.coreAt { n with cores := n.cores ++ [some c] } i = some c') :
    c' = c ∨ n.coreAt i = some c' := by
  simp only [Network.coreAt_eq_some_iff, List.getElem?_append] at h ⊢
  split at h
  · exact .inr h
  · exact .inl (by simpa using List.mem_of_getElem? h)

/-- A core destroyed: a core is one of the others (R191, R204). -/
theorem Network.coreAt_of_destroy (h : Network.coreAt { n with cores := n.cores.set j none } i = some c) :
    n.coreAt i = some c := by
  simp only [Network.coreAt_eq_some_iff, List.getElem?_set] at h ⊢
  split at h
  · split at h <;> cases h
  · exact h

@[simp] theorem Network.coreAt_startAll : n.startAll.coreAt i = (n.coreAt i).map CoreState.start := by
  simp only [Network.coreAt, Network.startAll, List.getElem?_map]
  cases n.cores[i]? <;> rfl

end

/-! #### The wiring (R31) -/

/-- The two cores share no input channel and no output channel (R31). -/
def CoreState.Apart (c c' : CoreState) : Prop :=
  (∀ p, c.inPort = some p → c'.inPort ≠ some p) ∧ (∀ p, c.outPort = some p → c'.outPort ≠ some p)

theorem CoreState.Apart.symm {c c' : CoreState} (h : c.Apart c') : c'.Apart c :=
  ⟨fun p hp hq => h.1 p hq hp, fun p hp hq => h.2 p hq hp⟩

/-- Whether two cores are apart depends on their ports alone. -/
theorem CoreState.Apart.congr_left {c d c' : CoreState} (h : c.Apart c') (hi : d.inPort = c.inPort)
    (ho : d.outPort = c.outPort) : d.Apart c' :=
  ⟨fun p hp => h.1 p (hi.symm.trans hp), fun p hp => h.2 p (ho.symm.trans hp)⟩

section
variable {n n' : Network}

theorem Network.WellWired.apart (h : n.WellWired) {i j : Nat} {c c' : CoreState} (hij : i ≠ j)
    (hi : n.coreAt i = some c) (hj : n.coreAt j = some c') : c.Apart c' :=
  h i j c c' hij hi hj

/-- A network is well wired when every core has the ports of a core in its place in a well-wired network. -/
theorem Network.WellWired.of_same_ports (h : n.WellWired)
    (hp : ∀ i c', n'.coreAt i = some c' → ∃ c, n.coreAt i = some c ∧ c'.inPort = c.inPort ∧ c'.outPort = c.outPort) :
    n'.WellWired := by
  intro i j c c' hij hi hj
  obtain ⟨d, hd, hdi, hdo⟩ := hp i c hi
  obtain ⟨d', hd', hdi', hdo'⟩ := hp j c' hj
  exact (((h.apart hij hd hd').congr_left hdi hdo).symm.congr_left hdi' hdo').symm

/-- Replacing a core by one that shares no port with the others keeps the wiring. -/
theorem Network.WellWired.setCore (h : n.WellWired) {i : Nat} {c : CoreState}
    (hc : ∀ j c', j ≠ i → n.coreAt j = some c' → c.Apart c') : (n.setCore i c).WellWired := by
  intro j k d d' hjk hj hk
  rcases Network.coreAt_setCore_cases hj with ⟨rfl, rfl⟩ | ⟨hji, hj'⟩
  · rcases Network.coreAt_setCore_cases hk with ⟨rfl, rfl⟩ | ⟨hki, hk'⟩
    · exact absurd rfl hjk
    · exact hc k d' hki hk'
  · rcases Network.coreAt_setCore_cases hk with ⟨rfl, rfl⟩ | ⟨-, hk'⟩
    · exact (hc j d hji hj').symm
    · exact h.apart hjk hj' hk'

theorem samePort_eq_false_iff {p q : Option Nat} : samePort p q = false ↔ ∀ x, p = some x → q ≠ some x := by
  cases p with
  | none => simp [samePort]
  | some a => simp [samePort, eq_comm (a := some a)]

/-- A wiring that the host is not refused shares no port with another core (R31). -/
theorem Network.apart_of_not_portTaken {i : Nat} {c : CoreState} (h : n.portTaken i c.inPort c.outPort = false)
    {j : Nat} {c' : CoreState} (hij : j ≠ i) (hj : n.coreAt j = some c') : c.Apart c' := by
  have hlt : j < n.cores.length := (List.getElem?_eq_some_iff.mp (Network.coreAt_eq_some_iff.mp hj)).1
  have hfree := List.any_eq_false.mp h j (List.mem_range.mpr hlt)
  simp only [hj, Option.any_some, bne_iff_ne.mpr hij, Bool.true_and, Bool.not_eq_true, Bool.or_eq_false_iff,
    samePort_eq_false_iff] at hfree
  exact hfree

end

/-! #### The invariant under each change -/

section
variable {n : Network}

theorem Network.Inv.chansFit (h : n.Inv) : Channels.FitsBuild n.chans n.cfg :=
  ⟨h.chansWf, h.chansInRange, h.depth⟩

/-- Cores that are well wired and meet their own invariant may take the place of the cores. -/
theorem Network.Inv.replaceCores (h : n.Inv) {cores : List (Option CoreState)}
    (hw : Network.WellWired { n with cores := cores })
    (hc : ∀ i c, Network.coreAt { n with cores := cores } i = some c → (n.viewOf c).Inv) :
    Network.Inv { n with cores := cores } :=
  { h with wired := hw, cores := hc }

/-- Channels that fit the build may take the place of the channels. -/
theorem Network.Inv.replaceChans (h : n.Inv) {cs : Channels} (hc : Channels.FitsBuild cs n.cfg) :
    Network.Inv { n with chans := cs } where
  wired := h.wired
  admitted := h.admitted
  chansWf := hc.wf
  chansInRange := hc.inRange
  depth := hc.depth
  cores i c hi := (h.cores i c hi).setChans hc
  endsStarted := h.endsStarted
  onlyCompleteHasResult := h.onlyCompleteHasResult

theorem Network.Inv.setCore (h : n.Inv) {i : Nat} {c : CoreState}
    (hw : ∀ j c', j ≠ i → n.coreAt j = some c' → c.Apart c') (hc : (n.viewOf c).Inv) : (n.setCore i c).Inv := by
  refine h.replaceCores (h.wired.setCore hw) fun j c' hj => ?_
  rcases Network.coreAt_setCore_cases hj with ⟨-, rfl⟩ | ⟨-, hj⟩
  · exact hc
  · exact h.cores j c' hj

/-- A run that has ended has started (R196). -/
theorem Network.Inv.started_of_outcome (h : n.Inv) (ho : n.outcome.isSome = true) : n.started = true := by
  cases he : n.ended with
  | some o => simp [Network.started, h.endsStarted (by simp [he])]
  | none =>
    cases hs : n.started with
    | true => rfl
    | false => simp [Network.outcome, he, Network.endOfCores, hs] at ho

/-- Only a complete run has a result (R196). -/
theorem Network.Inv.result_of_outcome (h : n.Inv) {o : RunOutcome} (ho : n.outcome = some o)
    (hne : o.how ≠ .complete) : o.result = none := by
  cases he : n.ended with
  | some o' =>
    obtain rfl : o' = o := by simpa [Network.outcome, he] using ho
    exact h.onlyCompleteHasResult _ he hne
  | none =>
    simp only [Network.outcome, he, Option.map_eq_some_iff] at ho
    obtain ⟨e, -, rfl⟩ := ho
    exact if_neg hne

theorem Network.Inv.remember (h : n.Inv) : n.remember.Inv :=
  { h with
    endsStarted := h.started_of_outcome
    onlyCompleteHasResult := fun _ ho hne => h.result_of_outcome ho hne }

/-! #### The moves (R204) -/

theorem Network.Inv.construct (h : n.Inv) {program : List Int} {c : CoreState} (hc : newCore n.cfg program = .ok c) :
    Network.Inv { n with cores := n.cores ++ [some c] } := by
  obtain ⟨-, hp, rfl⟩ := newCore_ok_iff.mp hc
  have hnew {c' : CoreState} : CoreState.Apart (CoreState.fresh (Memory.ofWords program)) c' := ⟨nofun, nofun⟩
  refine h.replaceCores (fun i j c c' hij hi hj => ?_) fun i c hi => ?_
  · rcases Network.coreAt_construct_cases hi with rfl | hi
    · exact hnew
    · rcases Network.coreAt_construct_cases hj with rfl | hj
      · exact hnew.symm
      · exact h.wired i j c c' hij hi hj
  · rcases Network.coreAt_construct_cases hi with rfl | hi
    · exact State.fresh_inv h.admitted hp h.chansFit
    · exact h.cores i c hi

theorem Network.Inv.wire (h : n.Inv) {i : Nat} {p q : Option Nat} {c c' : CoreState} (hi : n.coreAt i = some c)
    (hfree : n.portTaken i p q = false) (hw : c.wire p q = .ok c') : (n.setCore i c').Inv := by
  obtain ⟨hs, rfl⟩ := CoreState.wire_ok_iff.mp hw
  exact h.setCore (fun _ _ hij hj => Network.apart_of_not_portTaken hfree hij hj) ((h.cores i c hi).rewire hs p q)

theorem Network.Inv.startAll (h : n.Inv) : n.startAll.Inv := by
  have hcore (i : Nat) (c' : CoreState) (hi : n.startAll.coreAt i = some c') :
      ∃ c, n.coreAt i = some c ∧ c.start = c' := by
    rwa [Network.coreAt_startAll, Option.map_eq_some_iff] at hi
  refine h.replaceCores (h.wired.of_same_ports fun i c' hi => ?_) fun i c' hi => ?_
  · obtain ⟨c, hc, rfl⟩ := hcore i c' hi
    exact ⟨c, hc, c.start_keeps_ports⟩
  · obtain ⟨c, hc, rfl⟩ := hcore i c' hi
    exact (h.cores i c hc).start

theorem Network.Inv.destroy (h : n.Inv) (i : Nat) : Network.Inv { n with cores := n.cores.set i none } :=
  h.replaceCores (h.wired.of_same_ports fun _ c hj => ⟨c, Network.coreAt_of_destroy hj, rfl, rfl⟩)
    fun j c hj => h.cores j c (Network.coreAt_of_destroy hj)

/-- A step of core `i` first replaces the channels, then core `i` by one with the same ports (R195). -/
theorem Network.Inv.stepCore (h : n.Inv) (i : Nat) : (n.stepCore i).Inv := by
  unfold Network.stepCore
  split
  · exact h
  · rename_i c hi
    have hstep : (n.viewOf c).advance.Inv := (h.cores i c hi).advance
    obtain ⟨hin, hout, hcfg⟩ := (n.viewOf c).advance_keeps_wiring
    have hfit : Channels.FitsBuild (n.viewOf c).advance.chans n.cfg := by
      have := hstep.dataFits.chans
      rwa [hcfg] at this
    refine (h.replaceChans hfit).setCore (fun j c' hij hj => (h.wired.apart hij.symm hi hj).congr_left hin hout) ?_
    show State.Inv ⟨(n.viewOf c).advance.toCoreState, (n.viewOf c).cfg, (n.viewOf c).advance.chans⟩
    rw [← hcfg]
    exact hstep

/-- Every move that the host is not refused keeps the invariant (R204). -/
theorem Network.Inv.move (h : n.Inv) {n' : Network} {m : HostMove} (hm : n.move m = .ok n') : n'.Inv := by
  cases m with
  | construct program =>
    simp only [Network.move] at hm
    split at hm
    · cases hm
    · rename_i c hc
      cases hm
      exact h.construct hc
  | wire i p q =>
    simp only [Network.move] at hm
    split at hm
    · cases hm
    · rename_i c hi
      split at hm
      · cases hm
      · rename_i hfree
        split at hm
        · cases hm
        · rename_i c' hw
          cases hm
          exact h.wire hi (by simpa using hfree) hw
  | seed c v =>
    simp only [Network.move] at hm
    split at hm
    · cases hm
    · split at hm
      · cases hm
      · rename_i hv
        split at hm
        · cases hm
        · rename_i hfull
          cases hm
          exact h.replaceChans (h.chansFit.put (by simpa using hv) (by simpa using hfull))
  | start =>
    cases hm
    exact h.startAll
  | step i =>
    simp only [Network.move] at hm
    split at hm
    · cases hm
      exact h.stepCore i
    · cases hm
  | destroy i =>
    simp only [Network.move] at hm
    split at hm
    · cases hm
    · split at hm
      · cases hm
        exact h.destroy i
      · cases hm

end

/-- Settles O50: what the host remembers before a move keeps the invariant, and so does each move. -/
theorem hostMovesKeepTheInvariant : Obligations.HostMovesKeepTheInvariant :=
  fun _ _ _ hn hmove => hn.remember.move hmove

end Sys2Proof.Machine
end

section
/-! ### The network the host builds meets the invariant of a network (O53) -/

namespace Sys2Proof.Machine

/-! #### Seeding (R193) -/

/-- The contents of every channel after one value is put onto each channel from `c` on. -/
theorem putFrom_queue (cs : Channels) (c : Nat) (vs : List Int) (b : Nat) :
    Channels.queue (putFrom cs c vs) b =
      Channels.queue cs b ++ if c ≤ b then vs[b - c]?.toList else [] := by
  induction vs generalizing cs c with
  | nil => simp [putFrom]
  | cons v vs ih =>
    rw [putFrom, ih, chanPut_queue]
    rcases Nat.lt_trichotomy b c with hlt | rfl | hgt
    · simp [show b ≠ c by omega, show ¬c + 1 ≤ b by omega, show ¬c ≤ b by omega]
    · simp
    · obtain ⟨k, rfl⟩ : ∃ k, b = c + 1 + k := ⟨b - (c + 1), by omega⟩
      simp [show c + 1 + k - c = k + 1 by omega, show c + 1 + k ≠ c by omega, show c ≤ c + 1 + k by omega]

theorem putFrom_wf {cs : Channels} (h : Channels.wf cs) (c : Nat) (vs : List Int) : Channels.wf (putFrom cs c vs) := by
  induction vs generalizing cs c with
  | nil => exact h
  | cons v vs ih => exact ih (chanPut_wf h c v) (c + 1)

/-- Before the start a channel holds its phase setting, and channel 0 the seed behind it (R193). -/
theorem seededChannels_queue (phases : List Int) (seed : Int) (b : Nat) :
    Channels.queue (seededChannels phases seed) b = phases[b]?.toList ++ if b = 0 then [seed] else [] := by
  have hput (b : Nat) : Channels.queue (putFrom [] 0 phases) b = phases[b]?.toList := by
    rw [putFrom_queue]
    simp [Channels.queue]
  rw [seededChannels, chanPut_queue, hput, hput]
  by_cases hb : b = 0 <;> simp [hb]

/-- Canonical channels fit the build when the contents of each one do. -/
theorem Channels.FitsBuild.of_queue {cs : Channels} {cfg : Config} (hwf : Channels.wf cs)
    (hv : ∀ c, ∀ v ∈ Channels.queue cs c, cfg.inRange v = true)
    (hl : ∀ k, cfg.channelDepth = some k → ∀ c, (Channels.queue cs c).length ≤ k) : Channels.FitsBuild cs cfg := by
  have hq (e : Nat × List Int) (he : e ∈ cs) : Channels.queue cs e.1 = e.2 := Sparse.get_of_mem _ hwf he
  exact ⟨hwf, fun e he => hq e he ▸ hv e.1, fun k hk e he => hq e he ▸ hl k hk e.1⟩

theorem two_le_of_not_tooShallow {cfg : Config} (h : tooShallow cfg = false) {k : Nat}
    (hk : cfg.channelDepth = some k) : 2 ≤ k :=
  Nat.succ_le_of_lt (by simpa [tooShallow, hk] using h)

/-- A channel is seeded with at most two values, so a build that is not too shallow can hold them (R193). -/
theorem seededChannels_fit {cfg : Config} {phases : List Int} {seed : Int} (hd : tooShallow cfg = false)
    (hr : (seed :: phases).all cfg.inRange = true) : Channels.FitsBuild (seededChannels phases seed) cfg := by
  refine .of_queue (chanPut_wf (putFrom_wf ⟨.nil, nofun⟩ 0 phases) 0 seed) (fun c v hv => ?_) fun k hk c => ?_
  · refine List.all_eq_true.mp hr v ?_
    rw [seededChannels_queue, List.mem_append, Option.mem_toList] at hv
    rcases hv with hv | hv
    · exact List.mem_cons_of_mem _ (List.mem_of_getElem? hv)
    · split at hv
      · exact List.mem_singleton.mp hv ▸ List.mem_cons_self
      · cases hv
  · have hk2 := two_le_of_not_tooShallow hd hk
    have hphase : (phases[c]?.toList).length ≤ 1 := by cases phases[c]? <;> simp
    have hseed : (if c = 0 then [seed] else []).length ≤ 1 := by split <;> simp
    rw [seededChannels_queue, List.length_append]
    omega

/-! #### Construction and wiring (R191, R192) -/

/-- No two cores of the line or ring produce onto one channel (R31, R192). -/
theorem outChannel_injOn {feedback : Bool} {k i j : Nat} (hi : i < k) (hj : j < k)
    (h : outChannel feedback k i = outChannel feedback k j) : i = j := by
  cases feedback with
  | false => exact Nat.succ.inj h
  | true => exact (Nat.ModEq.add_right_cancel' 1 h).eq_of_lt_of_lt hi hj

/-- The checks of the host before it builds a network, and the network it builds (R191 to R193). -/
theorem buildNetwork_ok {cfg : Config} {program phases : List Int} {feedback : Bool} {n : Network}
    (h : buildNetwork cfg program phases feedback = .ok n) :
    phases ≠ [] ∧ phases.Nodup ∧ tooShallow cfg = false ∧ (cfg.seed :: phases).all cfg.inRange = true ∧
      ∃ c, newCore cfg program = .ok c ∧
        n = { cfg := cfg
              cores := (List.range phases.length).map (fun i => some (wiredCore feedback phases.length c i))
              chans := seededChannels phases cfg.seed
              hasStarted := false
              ended := none } := by
  unfold buildNetwork at h
  iterate 4 (split at h; · cases h)
  split at h
  · cases h
  · rename_i hne hnd hts hr _ c hc
    cases h
    exact ⟨by simpa using hne, by simpa using hnd, by simpa using hts, by simpa using hr, c, hc, rfl⟩

/-- The cores of a built network: core `i`, wired (R192). -/
theorem coreAt_built {n : Network} {feedback : Bool} {k : Nat} {c : CoreState}
    (hn : n.cores = (List.range k).map (fun i => some (wiredCore feedback k c i))) {i : Nat} {c' : CoreState}
    (hi : n.coreAt i = some c') : i < k ∧ c' = wiredCore feedback k c i := by
  rw [Network.coreAt_eq_some_iff, hn, List.getElem?_map, Option.map_eq_some_iff] at hi
  obtain ⟨j, hj, heq⟩ := hi
  obtain ⟨hlt, rfl⟩ := List.getElem?_eq_some_iff.mp hj
  simp only [List.length_range, List.getElem_range, Option.some.injEq] at hlt heq
  exact ⟨hlt, heq.symm⟩

theorem wiredCore_apart {feedback : Bool} {k : Nat} (c : CoreState) {i j : Nat} (hi : i < k) (hj : j < k)
    (hij : i ≠ j) : (wiredCore feedback k c i).Apart (wiredCore feedback k c j) :=
  ⟨fun _ hp hq => hij (Option.some.inj (hp.trans hq.symm)),
   fun _ hp hq => hij (outChannel_injOn hi hj (Option.some.inj (hp.trans hq.symm)))⟩

/-- Settles O53: the cores are fresh and wired apart, and the seeded channels fit the build. -/
theorem builtNetworkMeetsTheInvariant : Obligations.BuiltNetworkMeetsTheInvariant := by
  intro cfg program phases feedback n ha hbuild
  obtain ⟨-, -, hshallow, hrange, c, hc, rfl⟩ := buildNetwork_ok hbuild
  obtain ⟨-, hp, rfl⟩ := newCore_ok_iff.mp hc
  have hfit := seededChannels_fit hshallow hrange
  exact {
    wired := fun i j d d' hij hi hj => by
      obtain ⟨hik, rfl⟩ := coreAt_built rfl hi
      obtain ⟨hjk, rfl⟩ := coreAt_built rfl hj
      exact wiredCore_apart _ hik hjk hij
    admitted := ha
    chansWf := hfit.wf
    chansInRange := hfit.inRange
    depth := hfit.depth
    cores := fun i d hi => by
      obtain ⟨-, rfl⟩ := coreAt_built rfl hi
      exact (State.fresh_inv ha hp hfit).rewire rfl _ _
    endsStarted := nofun
    onlyCompleteHasResult := nofun }

end Sys2Proof.Machine
end

section
/-! ### Program memory (O20, O22, O37) -/

namespace Sys2Proof

/-- An instruction word decodes to the operation and the modes it is made of (R97). -/
theorem decodeWord_instrWord (op : Opcode) (ms : Modes) : decodeWord (instrWord op ms) = .ok (op, ms) := by
  obtain ⟨m1, m2, m3⟩ := ms
  cases op <;> cases m1 <;> cases m2 <;> cases m3 <;> rfl

end Sys2Proof

namespace Sys2Proof.Machine

/-- Settles O20, by the two sides of the bounds check. -/
theorem memReadIsBoundsChecked : Obligations.MemReadIsBoundsChecked := by
  intro m a
  split
  · rename_i hout
    exact memRead_error_iff.mpr ⟨rfl, hout⟩
  · rename_i hin
    exact memRead_ok_iff.mpr ⟨a.toNat, by omega, by omega, rfl⟩

/-- A write traps outside `[0, L)`, with the address (R52). -/
theorem memWrite_error_iff {m : Memory} {a v : Int} {t : Trap} :
    memWrite m a v = .error t ↔ t = outOfBounds a ∧ (a < 0 ∨ (m.size : Int) ≤ a) := by
  rw [← checkAddress_error_iff]
  unfold memWrite
  cases checkAddress m a <;> simp

/-- Settles O22: a write inside memory stores the word, and a store is read back at its address only. -/
theorem memWriteThenRead : Obligations.MemWriteThenRead := by
  intro m a v
  refine ⟨fun hout => memWrite_error_iff.mpr ⟨rfl, hout⟩, ?_⟩
  rintro ⟨h0, hL⟩
  lift a to Nat using h0
  have hlt : a < m.size := by exact_mod_cast hL
  refine ⟨m.store a v, memWrite_ok_iff.mpr ⟨a, rfl, hlt, rfl⟩, m.store_size a v, ?_, fun b hb => ?_⟩
  · rw [memRead_store hlt, if_pos rfl]
  · rw [memRead_store hlt, if_neg hb]

/-- Where the operands can be read, the destination is in bounds and the build can hold the sum, ADD completes (R111). -/
theorem exec_add_completes {ms : Modes} {l1 l2 l3 a b : Int} {d : Nat} {s : State}
    (h1 : operand s.mem ms.mode1 l1 = .ok a) (h2 : operand s.mem ms.mode2 l2 = .ok b)
    (h3 : destination s.mem l3 = .ok d) (hr : s.cfg.inRange (a + b) = true) :
    exec (.add ms l1 l2 l3) s = .next ((s.storeWord d (a + b)).completeAt (s.ip + 4)) := by
  have hops := twoSourcesAndDestination_ok_iff.mpr ⟨h1, h2, h3⟩
  have hsum : addWords s.cfg a b = .ok (a + b) := narrow_ok_iff.mpr ⟨rfl, hr⟩
  simp [exec, execAdd, writeResult, hops, hsum]

/-- A HALT word is fetched as HALT, whatever its mode digits, and no word behind it is read (R85, R89). -/
theorem fetchInstr_haltWord {m : Memory} {p : Int} {ms : Modes} (h : memRead m p = .ok (instrWord .halt ms)) :
    fetchInstr m p = .ok (.halt ms) := by
  simp [fetchInstr, h, decodeWord_instrWord, Opcode.nparams, fetchParams, decode, assembleInstr]

/-- A running core with a HALT word at `ip` halts there (R133). -/
theorem step_haltWord {s : State} {ms : Modes} (hs : s.status = .running)
    (h : memRead s.mem s.ip = .ok (instrWord .halt ms)) : step s = .next s.haltNow := by
  have hen : s.enabled = true := by simp [State.enabled, hs]
  simp [step, hen, fetchInstr_haltWord h, exec, execHalt]

/-- Settles O37: the ADD completes with `ip` at its destination, and the fetch there reads the sum back. -/
theorem writtenWordIsFetchedNext : Obligations.WrittenWordIsFetchedNext := by
  intro ms hm l1 l2 l3 a b s h1 h2 hip h0 hL hr hsum
  lift l3 to Nat using h0
  have hlt : l3 < s.mem.size := by exact_mod_cast hL
  refine ⟨_, exec_add_completes h1 h2 (destination_ok_iff.mpr ⟨rfl, hlt⟩) hr, hip.symm, step_haltWord (ms := hm) rfl ?_⟩
  simp only [State.completeAt_mem, State.completeAt_ip, State.storeWord_mem]
  rw [memRead_store hlt, if_pos hip.symm, hsum]

end Sys2Proof.Machine
end

section
/-! ### The channels are queues (O45) -/

namespace Sys2Proof.Machine

/-- The contents of every channel after several puts onto one (R62, R156). -/
theorem queue_foldl_chanPut (cs : Channels) (c : Nat) (vs : List Int) (b : Nat) :
    Channels.queue (vs.foldl (fun cs v => chanPut cs c v) cs) b =
      if b = c then Channels.queue cs c ++ vs else Channels.queue cs b := by
  induction vs generalizing cs with
  | nil => by_cases hb : b = c <;> simp [hb]
  | cons v vs ih =>
    rw [List.foldl_cons, ih]
    by_cases hb : b = c <;> simp [hb]

/-- Settles O45, by the laws of put and get. -/
theorem channelsAreFifo : Obligations.ChannelsAreFifo := by
  intro cs c vs
  refine ⟨queue_foldl_chanPut cs c vs, chanGet_none_iff.symm, fun v cs' hget => ?_⟩
  obtain ⟨rest, hq, rfl⟩ := chanGet_some_iff.mp hget
  exact ⟨by simp [hq], fun b hb => by simp [hb]⟩

end Sys2Proof.Machine
end

section
/-! ### What a step does with the channels, and what it reads of them (O19)

An instruction uses the channels in at most one way: it takes the oldest value of its input channel or puts one value
onto its output channel. Unless it blocks, on any channels that supply the core as its own do it leaves the same core
and makes the same use of them. -/

namespace Sys2Proof.Machine

/-- The use one step makes of the channels (R106). -/
inductive PortUse where
  | idle
  | take (c : Nat)
  | put (c : Nat) (v : Int)
  deriving DecidableEq, Repr

/-- The channels after a use (R156, R157). -/
def PortUse.apply : PortUse → Channels → Channels
  | .idle, cs => cs
  | .take c, cs => Channels.setQueue cs c (Channels.queue cs c).tail
  | .put c v, cs => chanPut cs c v

/-- A use that core `s` can make of its channels: a value it takes is there (R150, R151). -/
def PortUse.Of (s : State) : PortUse → Prop
  | .idle => True
  | .take c => s.inPort = some c ∧ Channels.queue s.chans c ≠ []
  | .put c _ => s.outPort = some c

/-- The channels `cs` supply core `s` as its own do: each oldest value waiting on its input channel waits in `cs` too,
and its output channel is as full (R106). -/
structure State.Supplies (s : State) (cs : Channels) : Prop where
  oldest : ∀ c v, s.inPort = some c → (Channels.queue s.chans c).head? = some v → (Channels.queue cs c).head? = some v
  room : ∀ c, s.outPort = some c → chanFull s.cfg cs c = chanFull s.cfg s.chans c

/-- On any channels that supply core `s`, `f` answers one core and makes one use of the channels. -/
def UsesPorts (f : State → Outcome) (s : State) : Prop :=
  ∃ (t : State) (u : PortUse), u.Of s ∧ ∀ cs, s.Supplies cs → f (s.setChans cs) = .next (t.setChans (u.apply cs))

section
variable {s : State}

theorem State.Supplies.refl (s : State) : s.Supplies s.chans :=
  ⟨fun _ _ _ h => h, fun _ _ => rfl⟩

/-- What reads no channel and writes none makes no use of the ports. -/
theorem UsesPorts.of_idle {f : State → Outcome} (t : State) (h : ∀ cs, f (s.setChans cs) = .next (t.setChans cs)) :
    UsesPorts f s :=
  ⟨t, .idle, trivial, fun cs _ => h cs⟩

/-! #### The instructions: replacing the channels commutes with every other update of the state -/

theorem State.setChans_raise (s : State) (cs : Channels) (t : Trap) :
    (s.setChans cs).raise t = (s.raise t).setChans cs := rfl

theorem State.setChans_completeAt (s : State) (cs : Channels) (p : Int) :
    (s.setChans cs).completeAt p = (s.completeAt p).setChans cs := rfl

theorem State.setChans_storeWord (s : State) (cs : Channels) (d : Nat) (v : Int) :
    (s.setChans cs).storeWord d v = (s.storeWord d v).setChans cs := rfl

theorem State.setChans_logOutput (s : State) (cs : Channels) (v : Int) :
    (s.setChans cs).logOutput v = (s.logOutput v).setChans cs := rfl

theorem State.setChans_setChans (s : State) (cs cs' : Channels) : (s.setChans cs).setChans cs' = s.setChans cs' := rfl

theorem writeResult_usesPorts (f : Int → Int → Except Trap Int) (ms : Modes) (l1 l2 l3 : Int) (s : State) :
    UsesPorts (writeResult f ms l1 l2 l3) s := by
  cases h : twoSourcesAndDestination s.mem ms l1 l2 l3 with
  | error tr => exact .of_idle (s.raise tr) fun _ => by simp [writeResult, h, State.setChans_raise]
  | ok p =>
    obtain ⟨a, b, d⟩ := p
    cases hr : f a b with
    | error tr => exact .of_idle (s.raise tr) fun _ => by simp [writeResult, h, hr, State.setChans_raise]
    | ok r =>
      exact .of_idle ((s.storeWord d r).completeAt (s.ip + 4)) fun _ => by
        simp [writeResult, h, hr, State.setChans_storeWord, State.setChans_completeAt]

theorem jumpWhen_usesPorts (test : Int → Bool) (ms : Modes) (l1 l2 : Int) (s : State) :
    UsesPorts (jumpWhen test ms l1 l2) s := by
  cases h : twoSources s.mem ms l1 l2 with
  | error tr => exact .of_idle (s.raise tr) fun _ => by simp [jumpWhen, h, State.setChans_raise]
  | ok p =>
    exact .of_idle (s.completeAt (if test p.1 then p.2 else s.ip + 3)) fun _ => by
      simp [jumpWhen, h, State.setChans_completeAt]

/-- INPUT blocks, or takes the oldest value, which every supply has (R150, R152). -/
theorem execInput_blocks_or_usesPorts (ms : Modes) (l1 : Int) (s : State) :
    execInput ms l1 s = .next s.blockOnInput ∨ UsesPorts (execInput ms l1) s := by
  cases hd : destination s.mem l1 with
  | error tr => exact .inr (.of_idle (s.raise tr) fun _ => by simp [execInput, hd, State.setChans_raise])
  | ok d =>
    cases hc : s.inPort with
    | none =>
      exact .inr (.of_idle (s.raise ⟨.starvedInput, none⟩) fun _ => by
        simp [execInput, hd, hc, State.setChans_raise])
    | some c =>
      cases hq : Channels.queue s.chans c with
      | nil => exact .inl (by simp [execInput, hd, hc, chanGet, hq])
      | cons v rest =>
        refine .inr ⟨(s.storeWord d v).completeAt (s.ip + 2), .take c, ⟨hc, by simp [hq]⟩, fun cs hs => ?_⟩
        obtain ⟨rest', hq'⟩ := List.head?_eq_some_iff.mp (hs.oldest c v hc (by simp [hq]))
        simp [execInput, hd, hc, chanGet, hq', PortUse.apply, State.setChans_storeWord, State.setChans_setChans,
          State.setChans_completeAt]

/-- OUTPUT puts its source's value, unless the channel is full, as it is in every supply or in none (R151, R159). -/
theorem execOutput_usesPorts (ms : Modes) (l1 : Int) (s : State) : UsesPorts (execOutput ms l1) s := by
  cases hv : operand s.mem ms.mode1 l1 with
  | error tr => exact .of_idle (s.raise tr) fun _ => by simp [execOutput, hv, State.setChans_raise]
  | ok v =>
    cases hc : s.outPort with
    | none =>
      exact .of_idle ((s.logOutput v).completeAt (s.ip + 2)) fun _ => by
        simp [execOutput, hv, hc, State.setChans_logOutput, State.setChans_completeAt]
    | some c =>
      cases hf : chanFull s.cfg s.chans c with
      | true =>
        refine ⟨s.raise ⟨.channelOverflow, none⟩, .idle, trivial, fun cs hs => ?_⟩
        simp [execOutput, hv, hc, hs.room c hc, hf, PortUse.apply, State.setChans_raise]
      | false =>
        refine ⟨(s.logOutput v).completeAt (s.ip + 2), .put c v, hc, fun cs hs => ?_⟩
        simp [execOutput, hv, hc, hs.room c hc, hf, PortUse.apply, State.setChans_logOutput, State.setChans_setChans,
          State.setChans_completeAt]

/-- Every instruction blocks, or does the same on any channels that supply the core. -/
theorem exec_blocks_or_usesPorts (i : Instr) (s : State) :
    exec i s = .next s.blockOnInput ∨ UsesPorts (exec i) s := by
  cases i with
  | add ms l1 l2 l3 => exact .inr (writeResult_usesPorts (addWords s.cfg) ms l1 l2 l3 s)
  | multiply ms l1 l2 l3 => exact .inr (writeResult_usesPorts (multiplyWords s.cfg) ms l1 l2 l3 s)
  | lessThan ms l1 l2 l3 => exact .inr (writeResult_usesPorts lessThanWords ms l1 l2 l3 s)
  | equals ms l1 l2 l3 => exact .inr (writeResult_usesPorts equalsWords ms l1 l2 l3 s)
  | jumpIfTrue ms l1 l2 => exact .inr (jumpWhen_usesPorts holdsTrue ms l1 l2 s)
  | jumpIfFalse ms l1 l2 => exact .inr (jumpWhen_usesPorts holdsFalse ms l1 l2 s)
  | halt ms => exact .inr (.of_idle s.haltNow fun _ => rfl)
  | input ms l1 => exact execInput_blocks_or_usesPorts ms l1 s
  | output ms l1 => exact .inr (execOutput_usesPorts ms l1 s)

/-! #### The step -/

/-- A core that has an enabled step has one on any channels that supply it (R104). -/
theorem State.Supplies.enabled {cs : Channels} (h : s.Supplies cs) (hen : s.enabled = true) :
    (s.setChans cs).enabled = true := by
  cases hs : s.status with
  | running => simp [State.enabled, hs]
  | blockedOnInput =>
    obtain ⟨c, v, q, hc, hq⟩ := (State.enabled_iff_of_blocked hs).mp hen
    obtain ⟨q', hq'⟩ := List.head?_eq_some_iff.mp (h.oldest c v hc (by simp [hq]))
    exact (State.enabled_iff_of_blocked (s := s.setChans cs) hs).mpr ⟨c, v, q', hc, hq'⟩
  | ready | halted | faulted => simp [State.enabled, hs] at hen

theorem State.advance_of_disabled (h : s.enabled = false) : s.advance = s := by
  simp [State.advance, step_of_disabled h]

theorem State.advance_eq_of_step {t : State} (h : step s = .next t) : s.advance = t := by
  simp [State.advance, h]

/-- An enabled step blocks, or does the same on any channels that supply the core (R106). -/
theorem step_blocks_or_usesPorts (hen : s.enabled = true) : step s = .next s.blockOnInput ∨ UsesPorts step s := by
  cases hf : fetchInstr s.mem s.ip with
  | error tr =>
    refine .inr ⟨s.raise tr, .idle, trivial, fun cs hs => ?_⟩
    simp [step, hs.enabled hen, hf, PortUse.apply, State.setChans_raise]
  | ok i =>
    have hrun (cs : Channels) (hs : s.Supplies cs) : step (s.setChans cs) = exec i (s.setChans cs) := by
      simp [step, hs.enabled hen, hf]
    rcases exec_blocks_or_usesPorts i s with hb | ⟨t, u, hu, hexec⟩
    · exact .inl ((hrun s.chans (.refl s)).trans hb)
    · exact .inr ⟨t, u, hu, fun cs hs => (hrun cs hs).trans (hexec cs hs)⟩

/-- Unless it blocks, an enabled step leaves the same core on any channels that supply it, and makes the same use of
them (R106). -/
theorem State.advance_usesPorts (hen : s.enabled = true) (hb : s.advance ≠ s.blockOnInput) :
    ∃ u : PortUse, u.Of s ∧ ∀ cs, s.Supplies cs → (s.setChans cs).advance = s.advance.setChans (u.apply cs) := by
  rcases step_blocks_or_usesPorts hen with h | ⟨t, u, hu, hstep⟩
  · exact absurd (State.advance_eq_of_step h) hb
  · have hown : s.advance = t.setChans (u.apply s.chans) := State.advance_eq_of_step (hstep s.chans (.refl s))
    refine ⟨u, hu, fun cs hs => ?_⟩
    rw [hown]
    exact State.advance_eq_of_step (hstep cs hs)

/-- A core that two sets of channels supply alike becomes the same on both (R106). -/
theorem State.advance_toCoreState_of_supplies {cs : Channels} (h : s.Supplies cs)
    (h' : (s.setChans cs).Supplies s.chans) : s.advance.toCoreState = (s.setChans cs).advance.toCoreState := by
  by_cases hen : s.enabled = true
  · by_cases hb : s.advance = s.blockOnInput
    · by_cases hb' : (s.setChans cs).advance = (s.setChans cs).blockOnInput
      · rw [hb, hb']
        rfl
      · obtain ⟨u, -, hu⟩ := State.advance_usesPorts (h.enabled hen) hb'
        exact (congrArg State.toCoreState (hu s.chans h') :)
    · obtain ⟨u, -, hu⟩ := State.advance_usesPorts hen hb
      exact (congrArg State.toCoreState (hu cs h).symm :)
  · have hen' : ¬(s.setChans cs).enabled = true := fun hc => hen (h'.enabled hc)
    rw [State.advance_of_disabled (by simpa using hen), State.advance_of_disabled (by simpa using hen')]
    rfl

end

/-- Settles O19: the two states are one core whose channels supply it alike. -/
theorem stepReadsOnlyItsOwnInputs : Obligations.StepReadsOnlyItsOwnInputs := by
  rintro s ⟨core, cfg, cs⟩ t t' hcore hcfg hin hout hstep hstep'
  obtain rfl : s.toCoreState = core := hcore
  obtain rfl : s.cfg = cfg := hcfg
  have h : s.Supplies cs := ⟨fun c _ hc hv => hin c hc ▸ hv, fun c hc => (hout c hc).symm⟩
  have h' : (s.setChans cs).Supplies s.chans := ⟨fun c _ hc hv => (hin c hc).symm ▸ hv, fun c hc => hout c hc⟩
  rw [← State.advance_eq_of_step hstep, ← State.advance_eq_of_step hstep']
  exact State.advance_toCoreState_of_supplies h h'

end Sys2Proof.Machine
end

section
/-! ### The step of one core in a network (O49, O55) -/

namespace Sys2Proof.Machine

/-! #### What a step of one core leaves unchanged -/

/-- An instruction changes no channel but the two of its core's ports (R55, R62). -/
theorem Effect.queue_of_not_port {i : Instr} {s t : State} (he : Effect i s t) {k : Nat} (hin : s.inPort ≠ some k)
    (hout : s.outPort ≠ some k) : Channels.queue t.chans k = Channels.queue s.chans k := by
  cases he with
  | fault | write | jump | halt | block | log => rfl
  | input ms l1 d c v rest op h1 hc hq =>
    have hkc : k ≠ c := fun h => hin (h ▸ hc)
    simp [hkc]
  | put ms l1 v c op h1 hc hf =>
    have hkc : k ≠ c := fun h => hout (h ▸ hc)
    simp [hkc]

theorem StepCase.queue_of_not_port {s t : State} (hc : StepCase s t) {k : Nat} (hin : s.inPort ≠ some k)
    (hout : s.outPort ≠ some k) : Channels.queue t.chans k = Channels.queue s.chans k := by
  cases hc with
  | idle | fetchFault => rfl
  | ran i t hen hf he => exact he.queue_of_not_port hin hout

section
variable {n : Network} {i j : Nat} {c : CoreState}

/-- A step of a core that is there replaces it and the channels (R195). -/
theorem Network.stepCore_of_coreAt (h : n.coreAt i = some c) :
    n.stepCore i = { n.setCore i (n.viewOf c).advance.toCoreState with chans := (n.viewOf c).advance.chans } := by
  simp only [Network.stepCore, h]

theorem Network.stepCore_of_none (h : n.coreAt i = none) : n.stepCore i = n := by
  simp only [Network.stepCore, h]

/-- A step of one core changes no other core (R55, R199). -/
theorem Network.coreAt_stepCore_of_ne (hij : j ≠ i) : (n.stepCore i).coreAt j = n.coreAt j := by
  cases h : n.coreAt i with
  | none => rw [Network.stepCore_of_none h]
  | some c => simp [Network.stepCore_of_coreAt h, Network.coreAt, Network.setCore, hij.symm]

theorem Network.stepCore_cfg : (n.stepCore i).cfg = n.cfg := by
  cases h : n.coreAt i with
  | none => rw [Network.stepCore_of_none h]
  | some c => rw [Network.stepCore_of_coreAt h]; rfl

end

/-- Settles O49: only core `i` and the channels are replaced, and these as its own step leaves them. -/
theorem networkStepTouchesOneCore : Obligations.NetworkStepTouchesOneCore := by
  refine fun n i => ⟨fun j hij => Network.coreAt_stepCore_of_ne hij, Network.stepCore_cfg, fun c k hc hin hout => ?_⟩
  rw [Network.stepCore_of_coreAt hc]
  exact (case_of_step (step_eq_advance (n.viewOf c))).queue_of_not_port hin hout

/-! #### The uses that two cores apart make of the channels -/

theorem PortUse.apply_wf {cs : Channels} (h : Channels.wf cs) (u : PortUse) : Channels.wf (u.apply cs) := by
  cases u with
  | idle => exact h
  | take c => exact Channels.setQueue_wf h _ _
  | put c v => exact chanPut_wf h c v

section
variable {s t : State} {u w : PortUse}

/-- A use by one core keeps the oldest value that waits for a core apart from it: it takes from another channel, and a
put goes behind (R31, R62). -/
theorem PortUse.Of.supplies (hu : u.Of s) (hp : s.toCoreState.Apart t.toCoreState) (hd : t.cfg.channelDepth = none) :
    t.Supplies (u.apply t.chans) where
  oldest c v hc hv := by
    cases u with
    | idle => exact hv
    | take b =>
      have hcb : c ≠ b := fun h => hp.1 b hu.1 (h ▸ hc)
      simpa [PortUse.apply, hcb] using hv
    | put b x =>
      by_cases hcb : c = b
      · subst hcb
        simp [PortUse.apply, hv]
      · simpa [PortUse.apply, hcb] using hv
  room c _ := by rw [chanFull_unbounded hd, chanFull_unbounded hd]

section
variable {cs : Channels} (hwf : Channels.wf cs)
include hwf

/-- The contents of two channels may be replaced in either order. -/
theorem Channels.setQueue_comm {b c : Nat} (hbc : b ≠ c) (p q : List Int) :
    Channels.setQueue (Channels.setQueue cs b p) c q = Channels.setQueue (Channels.setQueue cs c q) b p := by
  refine Channels.ext_of_queue (Channels.setQueue_wf (Channels.setQueue_wf hwf _ _) _ _)
    (Channels.setQueue_wf (Channels.setQueue_wf hwf _ _) _ _) fun k => ?_
  by_cases hk : k = b
  · simp [hk, hbc]
  · simp [hk]

/-- A take and a put may be exchanged, on one channel too where the value taken was there before the put (R62). -/
theorem PortUse.take_put_comm {b : Nat} (hne : Channels.queue cs b ≠ []) (c : Nat) (v : Int) :
    (take b).apply ((put c v).apply cs) = (put c v).apply ((take b).apply cs) := by
  refine Channels.ext_of_queue (apply_wf (apply_wf hwf _) _) (apply_wf (apply_wf hwf _) _) fun k => ?_
  by_cases hbc : b = c
  · subst hbc
    by_cases hk : k = b <;> simp [apply, hk, List.tail_append_of_ne_nil hne]
  · by_cases hk : k = b
    · simp [apply, hk, hbc]
    · simp [apply, hk, Ne.symm hbc]

/-- The uses that two cores apart can make of the same channels may be exchanged (R31, R201). -/
theorem PortUse.Of.apply_comm (hu : u.Of s) (hw : w.Of t) (hp : s.toCoreState.Apart t.toCoreState)
    (hs : s.chans = cs) (ht : t.chans = cs) : w.apply (u.apply cs) = u.apply (w.apply cs) := by
  cases u with
  | idle => rfl
  | take b =>
    cases w with
    | idle => rfl
    | take c =>
      have hbc : b ≠ c := fun h => hp.1 b hu.1 (h ▸ hw.1)
      simpa [apply, hbc, hbc.symm] using Channels.setQueue_comm hwf hbc _ _
    | put c v => exact (take_put_comm hwf (hs ▸ hu.2) c v).symm
  | put b x =>
    cases w with
    | idle => rfl
    | take c => exact take_put_comm hwf (ht ▸ hw.2) b x
    | put c v =>
      have hbc : b ≠ c := fun h => hp.2 b hu (h ▸ hw)
      simpa [apply, chanPut, hbc, hbc.symm] using Channels.setQueue_comm hwf hbc _ _

end

end

section
variable {n : Network} {i j : Nat} {ci cj : CoreState}

theorem Network.setCore_comm (hij : i ≠ j) (c d : CoreState) :
    (n.setCore i c).setCore j d = (n.setCore j d).setCore i c := by
  simp [Network.setCore, List.set_comm _ _ hij]

/-- Two steps in turn replace both cores, where the second core becomes on the channels that the first step leaves
what it becomes in the network (R195). -/
theorem Network.stepCore_stepCore (hij : i ≠ j) (hi : n.coreAt i = some ci) (hj : n.coreAt j = some cj)
    {cs : Channels} (hsecond : ((n.viewOf cj).setChans (n.viewOf ci).advance.chans).advance =
      (n.viewOf cj).advance.setChans cs) :
    (n.stepCore i).stepCore j =
      { (n.setCore i (n.viewOf ci).advance.toCoreState).setCore j (n.viewOf cj).advance.toCoreState with
        chans := cs } := by
  have hj' : (n.stepCore i).coreAt j = some cj := (Network.coreAt_stepCore_of_ne hij.symm).trans hj
  have hview : (n.stepCore i).viewOf cj = (n.viewOf cj).setChans (n.viewOf ci).advance.chans := by
    rw [Network.stepCore_of_coreAt hi]
    rfl
  rw [Network.stepCore_of_coreAt hj', hview, hsecond, Network.stepCore_of_coreAt hi]
  rfl

end

/-- Settles O55: each step supplies the other core as before, so each makes the same use of the channels in either
order, and the two uses may be exchanged. -/
theorem stepsOfTwoCoresCommute : Obligations.StepsOfTwoCoresCommute := by
  intro n i j ci cj hn hd hij hi hj heni henj hbi hbj
  have hp : ci.Apart cj := hn.wired.apart hij hi hj
  obtain ⟨u, hu, hui⟩ := State.advance_usesPorts heni fun h => hbi (h ▸ rfl)
  obtain ⟨w, hw, hwj⟩ := State.advance_usesPorts henj fun h => hbj (h ▸ rfl)
  have hci : (n.viewOf ci).advance.chans = u.apply n.chans := congrArg State.chans (hui n.chans (.refl _))
  have hcj : (n.viewOf cj).advance.chans = w.apply n.chans := congrArg State.chans (hwj n.chans (.refl _))
  have hij' := Network.stepCore_stepCore hij hi hj (hci ▸ hwj _ (hu.supplies hp hd))
  have hji' := Network.stepCore_stepCore hij.symm hj hi (hcj ▸ hui _ (hw.supplies hp.symm hd))
  have hcomm : w.apply (n.viewOf ci).advance.chans = u.apply (n.viewOf cj).advance.chans := by
    rw [hci, hcj]
    exact hu.apply_comm hn.chansWf hw hp rfl rfl
  rw [hij', hji', Network.setCore_comm hij, hcomm]

end Sys2Proof.Machine
end

section
/-! ### The encoding of instructions (O1, O2, O3, O4) -/

namespace Sys2Proof

/-- A word decodes to an operation and modes exactly when it is the instruction word they make (R86, R97). -/
theorem decodeWord_ok_iff {w : Int} {op : Opcode} {ms : Modes} :
    decodeWord w = .ok (op, ms) ↔ w = instrWord op ms := by
  refine ⟨fun h => ?_, fun h => h ▸ decodeWord_instrWord op ms⟩
  unfold decodeWord at h
  split at h
  · cases h
  split at h
  · cases h
  split at h
  · cases h
  rename_i hop
  split at h
  · rename_i h1 h2 h3
    cases h
    have hcode := opcodeOf_eq_some hop
    have hd1 := modeOf_eq_some h1
    have hd2 := modeOf_eq_some h2
    have hd3 := modeOf_eq_some h3
    simp only [digit] at hd1 hd2 hd3
    simp only [instrWord]
    -- the word is below 10^5, so its opcode field and its three mode digits are all of it
    omega
  · cases h

/-- Settles O1: the instruction word decodes to its operation and modes, and the operation takes its literals. -/
theorem decodeEncodeRoundTrip : Obligations.DecodeEncodeRoundTrip := by
  intro i rest
  simp only [encode, List.cons_append, decode, decodeWord_instrWord]
  exact assembleInstr_lits i rest

/-- Settles O2: the first word is the instruction word of what it decodes to, and the words taken after it are the
literals. -/
theorem decodedWordsAreTheEncoding : Obligations.DecodedWordsAreTheEncoding := by
  intro ws rest i h
  cases ws with
  | nil => cases h
  | cons w ps =>
    simp only [decode] at h
    split at h
    · cases h
    · rename_i hw
      obtain ⟨rfl, rfl, rfl⟩ := assembleInstr_spec h
      rw [decodeWord_ok_iff.mp hw, encode, List.cons_append]

/-- A list of words decodes to an instruction and the rest exactly when the encoding stands before that rest. -/
theorem decode_ok_iff {ws rest : List Int} {i : Instr} : decode ws = .ok (i, rest) ↔ ws = encode i ++ rest :=
  ⟨decodedWordsAreTheEncoding ws rest i, fun h => h ▸ decodeEncodeRoundTrip i rest⟩

/-- The operations, in the order of the table of R97. -/
def Opcode.all : List Opcode :=
  [.add, .multiply, .input, .output, .jumpIfTrue, .jumpIfFalse, .lessThan, .equals, .halt]

theorem Opcode.mem_all (op : Opcode) : op ∈ Opcode.all := by
  cases op <;> decide

/-- The modes of an instruction word, in the order of the table of R97. -/
def Modes.all : List Modes :=
  [.position, .immediate].flatMap fun m3 => [.position, .immediate].flatMap fun m2 =>
    [.position, .immediate].map fun m1 => ⟨m1, m2, m3⟩

theorem Modes.mem_all (ms : Modes) : ms ∈ Modes.all := by
  obtain ⟨m1, m2, m3⟩ := ms
  cases m1 <;> cases m2 <;> cases m3 <;> decide

/-- The instruction words, in the order of the table of R97. -/
def legalWords : List Int :=
  Opcode.all.flatMap fun op => Modes.all.map (instrWord op)

theorem mem_legalWords {w : Int} : w ∈ legalWords ↔ ∃ op ms, w = instrWord op ms := by
  simp [legalWords, Opcode.mem_all, Modes.mem_all, eq_comm]

/-- Settles O3: the words that decode are the instruction words, and the table lists these. -/
theorem legalWordsAreTheTable : Obligations.LegalWordsAreTheTable := by
  intro w
  change _ ↔ w ∈ legalWords
  simp only [mem_legalWords, Prod.exists, decodeWord_ok_iff]

/-- Settles O4: each list of words is the encoding of its instruction, before the words that follow it. -/
theorem writtenOutWordsDecode : Obligations.WrittenOutWordsDecode :=
  ⟨decode_ok_iff.mpr rfl, decode_ok_iff.mpr rfl, decode_ok_iff.mpr rfl, decode_ok_iff.mpr rfl, decode_ok_iff.mpr rfl,
    decode_ok_iff.mpr rfl, decode_ok_iff.mpr rfl, decode_ok_iff.mpr rfl, decode_ok_iff.mpr rfl⟩

end Sys2Proof
end

section
/-! ### Fetching words that make no instruction (O10, O11) -/

namespace Sys2Proof

theorem Mode.digit_lt_two (m : Mode) : m.digit < 2 := by
  cases m <;> decide

theorem Opcode.code_lt (op : Opcode) : op.code < 100 := by
  cases op <;> decide

/-- The code of every operation stands in the table of R82. -/
theorem Opcode.code_mem (op : Opcode) : (op.code : Int) ∈ ([1, 2, 3, 4, 5, 6, 7, 8, 99] : List Int) := by
  cases op <;> decide

/-- The opcode field of an instruction word is the code of its operation (R82). -/
theorem instrWord_emod (op : Opcode) (ms : Modes) : instrWord op ms % 100 = op.code := by
  have hcode := op.code_lt
  simp only [instrWord]
  omega

/-- An instruction word has no more than five digits, and its mode digits are 0 or 1 (R81, R83). -/
theorem instrWord_digits (op : Opcode) (ms : Modes) :
    0 ≤ instrWord op ms ∧ instrWord op ms ≤ 99999 ∧ instrWord op ms / 100 % 10 < 2 ∧
      instrWord op ms / 1000 % 10 < 2 ∧ instrWord op ms / 10000 % 10 < 2 := by
  have h1 := ms.mode1.digit_lt_two
  have h2 := ms.mode2.digit_lt_two
  have h3 := ms.mode3.digit_lt_two
  have hcode := op.code_lt
  simp only [instrWord]
  omega

end Sys2Proof

namespace Sys2Proof.Machine

/-- A word that does not decode is fetched as no instruction (R90 to R93). -/
theorem fetchInstr_of_decodeWord_error {m : Memory} {p w : Int} {e : DecodeError} (hw : memRead m p = .ok w)
    (hd : decodeWord w = .error e) : fetchInstr m p = .error malformed := by
  simp [fetchInstr, hw, hd]

/-- A trap of a parameter fetch is the trap of the instruction fetch (R96). -/
theorem fetchInstr_of_fetchParams_error {m : Memory} {p w : Int} {op : Opcode} {ms : Modes} {t : Trap}
    (hw : memRead m p = .ok w) (hd : decodeWord w = .ok (op, ms)) (hp : fetchParams m op.nparams (p + 1) = .error t) :
    fetchInstr m p = .error t := by
  simp [fetchInstr, hw, hd, hp]

/-- An enabled core takes the trap of its fetch (R103, R182). -/
theorem step_of_fetchInstr_error {s : State} {t : Trap} (hen : s.enabled = true)
    (hf : fetchInstr s.mem s.ip = .error t) : step s = .next (s.raise t) := by
  simp [step, hen, hf]

/-- Parameter words that run past the end of memory trap at `L`, the first address out of bounds (R96). -/
theorem fetchParams_past_end {m : Memory} {n : Nat} {a : Int} (h0 : 0 ≤ a) (ha : a ≤ m.size) (hn : m.size < a + n) :
    fetchParams m n a = .error (outOfBounds m.size) := by
  induction n generalizing a with
  | zero => omega
  | succ n ih =>
    unfold fetchParams
    cases hr : memRead m a with
    | error t =>
      obtain ⟨rfl, hout⟩ := memRead_error_iff.mp hr
      rw [show a = m.size by omega]
    | ok v =>
      obtain ⟨d, rfl, hd, -⟩ := memRead_ok_iff.mp hr
      simp only [ih (a := d + 1) (by omega) (by omega) (by omega)]

/-- Settles O10: such a word is no instruction word, so the fetch traps. -/
theorem illegalWordFaults : Obligations.IllegalWordFaults := by
  intro s w hen hw hill
  cases hd : decodeWord w with
  | error e => exact step_of_fetchInstr_error hen (fetchInstr_of_decodeWord_error hw hd)
  | ok r =>
    obtain ⟨op, ms⟩ := r
    obtain rfl := decodeWord_ok_iff.mp hd
    have hdigits := instrWord_digits op ms
    simp only [instrWord_emod, op.code_mem, not_true_eq_false, false_or] at hill
    omega

/-- Settles O11: the instruction word lies in memory, so the parameter fetch that leaves it does so at `L`. -/
theorem truncatedInstructionFaults : Obligations.TruncatedInstructionFaults := by
  intro s w op ms hen hw hd hL
  obtain ⟨d, hip, hlt, -⟩ := memRead_ok_iff.mp hw
  have hp := fetchParams_past_end (m := s.mem) (n := op.nparams) (a := s.ip + 1) (by omega) (by omega) (by omega)
  exact step_of_fetchInstr_error hen (fetchInstr_of_fetchParams_error hw hd hp)

end Sys2Proof.Machine
end

section
/-! ### The digits an instruction ignores, and its source operands (O5, O21) -/

namespace Sys2Proof.Machine

/-- Of the modes, `twoSources` reads the first two (R89). -/
theorem twoSources_mode3 (m : Memory) (m1 m2 m3 n3 : Mode) (l1 l2 : Int) :
    twoSources m ⟨m1, m2, m3⟩ l1 l2 = twoSources m ⟨m1, m2, n3⟩ l1 l2 := rfl

/-- The third digit is a destination's in the four instructions that write a result (R88). -/
theorem writeResult_mode3 (f : Int → Int → Except Trap Int) (m1 m2 m3 n3 : Mode) (l1 l2 l3 : Int) (s : State) :
    writeResult f ⟨m1, m2, m3⟩ l1 l2 l3 s = writeResult f ⟨m1, m2, n3⟩ l1 l2 l3 s := by
  simp only [writeResult, twoSourcesAndDestination, twoSources_mode3 s.mem m1 m2 m3 n3]

/-- The third digit is past the parameter count of a jump (R89). -/
theorem jumpWhen_mode3 (test : Int → Bool) (m1 m2 m3 n3 : Mode) (l1 l2 : Int) (s : State) :
    jumpWhen test ⟨m1, m2, m3⟩ l1 l2 s = jumpWhen test ⟨m1, m2, n3⟩ l1 l2 s := by
  simp only [jumpWhen, twoSources_mode3 s.mem m1 m2 m3 n3]

/-- Settles O5: HALT and INPUT read no mode, OUTPUT the first, and the others pass the third to shared forms that do
not read it. -/
theorem ignoredDigitsChangeNothing : Obligations.IgnoredDigitsChangeNothing := by
  refine ⟨?halt, ?input, ?output, ?jumpIfTrue, ?jumpIfFalse, ?add, ?multiply, ?lessThan, ?equals, ?w1099, ?w11199,
    ?w10104⟩
  case halt => exact fun _ _ _ _ _ _ _ => rfl
  case input => exact fun _ _ _ _ _ _ _ _ => rfl
  case output => exact fun _ _ _ _ _ _ _ => rfl
  case jumpIfTrue => exact fun m1 m2 m3 n3 => jumpWhen_mode3 holdsTrue m1 m2 m3 n3
  case jumpIfFalse => exact fun m1 m2 m3 n3 => jumpWhen_mode3 holdsFalse m1 m2 m3 n3
  case add => exact fun m1 m2 m3 n3 l1 l2 l3 s => writeResult_mode3 (addWords s.cfg) m1 m2 m3 n3 l1 l2 l3 s
  case multiply => exact fun m1 m2 m3 n3 l1 l2 l3 s => writeResult_mode3 (multiplyWords s.cfg) m1 m2 m3 n3 l1 l2 l3 s
  case lessThan => exact fun m1 m2 m3 n3 => writeResult_mode3 lessThanWords m1 m2 m3 n3
  case equals => exact fun m1 m2 m3 n3 => writeResult_mode3 equalsWords m1 m2 m3 n3
  case w1099 => exact ⟨⟨.position, .immediate, .position⟩, decode_ok_iff.mpr rfl⟩
  case w11199 => exact ⟨⟨.immediate, .immediate, .immediate⟩, decode_ok_iff.mpr rfl⟩
  case w10104 => exact ⟨⟨.immediate, .position, .immediate⟩, decode_ok_iff.mpr rfl, rfl⟩

/-- Settles O21: a POSITION source is a read of memory at its literal, which is bounds-checked. -/
theorem sourceOperandForms : Obligations.SourceOperandForms := by
  refine fun m lit => ⟨rfl, (memReadIsBoundsChecked m lit).trans ?_⟩
  by_cases hin : 0 ≤ lit ∧ lit < m.size
  · rw [if_pos hin, if_neg (by omega)]
  · rw [if_neg hin, if_pos (by omega)]

end Sys2Proof.Machine
end

section
/-! ### The program text (O58, O59) -/

namespace Sys2Proof.Machine

/-- A character that is no blank stays at the head of a trimmed field (R99). -/
theorem trimBlanks_cons {c : Char} (hc : isBlank c = false) (cs : List Char) :
    trimBlanks (c :: cs) = c :: cs.rdropWhile isBlank := by
  simp [trimBlanks, List.rdropWhile, List.dropWhile_append, hc]

/-- Nothing is trimmed from a field without blanks (R99). -/
theorem trimBlanks_of_no_blank {cs : List Char} (h : ∀ c ∈ cs, isBlank c = false) : trimBlanks cs = cs := by
  cases cs with
  | nil => rfl
  | cons c cs =>
    rw [trimBlanks_cons (h c List.mem_cons_self), List.rdropWhile_eq_self_iff.mpr]
    intro hne
    simp [h _ (List.mem_cons_of_mem c (List.getLast_mem hne))]

/-- A field that starts with a minus sign is the negative of its digits (R99). -/
theorem fieldValue_of_minus {cs ds : List Char} (h : trimBlanks cs = '-' :: ds) :
    fieldValue cs = (digitsValue ds).map fun n => -(n : Int) := by
  simp [fieldValue, h]

/-- A field that does not start with a minus sign is its digits (R99). -/
theorem fieldValue_of_no_minus {cs ds : List Char} (h : trimBlanks cs = ds) (hd : ds.head? ≠ some '-') :
    fieldValue cs = (digitsValue ds).map fun n => (n : Int) := by
  unfold fieldValue
  rw [h]
  split
  · exact absurd rfl hd
  · rfl

/-- The character of a decimal digit reads back as the digit, and is neither a blank nor a minus sign. -/
theorem digitChar_reads {x : Nat} (hx : x < 10) :
    digitValue (Nat.digitChar x) = some x ∧ isBlank (Nat.digitChar x) = false ∧ Nat.digitChar x ≠ '-' := by
  decide +revert

/-- Digits read after a prefix extend it; `p` is the prefix, its last digit first, as `Nat.ofDigits` takes it. -/
theorem digitsFrom_ofDigits (p ds : List Nat) (h : ∀ x ∈ ds, x < 10) :
    digitsFrom (Nat.ofDigits 10 p) (ds.map Nat.digitChar) = some (Nat.ofDigits 10 (ds.reverse ++ p)) := by
  induction ds generalizing p with
  | nil => rfl
  | cons d ds ih =>
    obtain ⟨hd, hds⟩ := List.forall_mem_cons.mp h
    have hnext : 10 * Nat.ofDigits 10 p + d = Nat.ofDigits 10 (d :: p) := by
      rw [Nat.ofDigits_cons]; simp [Nat.add_comm]
    simp only [List.map_cons, digitsFrom, (digitChar_reads hd).1, hnext, ih (d :: p) hds, List.reverse_cons,
      List.append_assoc, List.singleton_append]

theorem digitsValue_ofDigits {d : Nat} {ds : List Nat} (h : ∀ x ∈ d :: ds, x < 10) :
    digitsValue ((d :: ds).map Nat.digitChar) = some (Nat.ofDigits 10 (d :: ds).reverse) := by
  have hds := digitsFrom_ofDigits [] (d :: ds) h
  rwa [List.append_nil] at hds

/-- Settles O58: neither text has a blank to trim, and only the second starts with a minus sign. -/
theorem digitsReadInBaseTen : Obligations.DigitsReadInBaseTen := by
  intro d ds h
  have hblank : ∀ c ∈ (d :: ds).map Nat.digitChar, isBlank c = false := by
    intro c hc
    obtain ⟨x, hx, rfl⟩ := List.mem_map.mp hc
    exact (digitChar_reads (h x hx)).2.1
  have hminus : ((d :: ds).map Nat.digitChar).head? ≠ some '-' := by
    simp [(digitChar_reads (h d List.mem_cons_self)).2.2]
  have hblank' : ∀ c ∈ '-' :: (d :: ds).map Nat.digitChar, isBlank c = false :=
    List.forall_mem_cons.mpr ⟨rfl, hblank⟩
  constructor
  · rw [fieldValue_of_no_minus (trimBlanks_of_no_blank hblank) hminus, digitsValue_ofDigits h]
    rfl
  · rw [fieldValue_of_minus (trimBlanks_of_no_blank hblank'), digitsValue_ofDigits h]
    rfl

/-- One field with no value leaves the fields without values (R99). -/
theorem fieldValues_none {fs : List (List Char)} {f : List Char} (hf : f ∈ fs) (h : fieldValue f = none) :
    fieldValues fs = none := by
  induction fs with
  | nil => cases hf
  | cons g fs ih =>
    rcases List.mem_cons.mp hf with rfl | hf
    · simp [fieldValues, h]
    · cases hg : fieldValue g <;> simp [fieldValues, hg, ih hf]

/-- A field that starts with a plus sign has no value (R99). -/
theorem fieldValue_plus (ds : List Char) : fieldValue ('+' :: ds) = none := by
  rw [fieldValue_of_no_minus (trimBlanks_cons rfl ds) (by simp)]
  rfl

/-- A character that begins no line terminator is kept (R99). -/
theorem joinLines_cons {c : Char} {rest : List Char} (hlf : c ≠ '\n') (hcr : c = '\r' → rest.head? ≠ some '\n') :
    joinLines (c :: rest) = c :: joinLines rest := by
  rw [joinLines]
  · rintro rest' rfl rfl
    exact hcr rfl rfl
  · exact hlf

theorem getLast?_ne_of_cons {a c : Char} {cs : List Char} (h : (a :: cs).getLast? ≠ some c) :
    cs.getLast? ≠ some c :=
  fun hc => h (by simp [List.getLast?_cons, hc])

/-- Lines are joined piece by piece where the text is not cut after a carriage return (R99). -/
theorem joinLines_append {xs : List Char} (ys : List Char) (h : xs.getLast? ≠ some '\r') :
    joinLines (xs ++ ys) = joinLines xs ++ joinLines ys := by
  induction xs using joinLines.induct with
  | case1 => rfl
  | case2 rest ih => exact ih (getLast?_ne_of_cons (getLast?_ne_of_cons h))
  | case3 rest ih => exact ih (getLast?_ne_of_cons h)
  | case4 c rest hcr hlf ih =>
    have hhead : c = '\r' → rest.head? ≠ some '\n' := by
      intro hc hn
      obtain ⟨rest', hr⟩ := List.head?_eq_some_iff.mp hn
      exact hcr rest' hc hr
    have hkept : c = '\r' → (rest ++ ys).head? ≠ some '\n' := by
      rintro rfl
      cases rest with
      | nil => exact absurd rfl h
      | cons x rest => exact hhead rfl
    rw [List.cons_append, joinLines_cons hlf hkept, joinLines_cons hlf hhead, ih (getLast?_ne_of_cons h),
      List.cons_append]

/-- A line feed between two characters of the text is dropped (R99). -/
theorem joinLines_lineFeed (text rest : List Char) {c : Char} (hc : c ≠ '\r') :
    joinLines (text ++ c :: '\n' :: rest) = joinLines (text ++ c :: rest) := by
  have hlast : (text ++ [c]).getLast? ≠ some '\r' := by simpa using hc
  calc joinLines (text ++ c :: '\n' :: rest)
      = joinLines ((text ++ [c]) ++ '\n' :: rest) := by simp
    _ = joinLines (text ++ [c]) ++ joinLines rest := joinLines_append _ hlast
    _ = joinLines ((text ++ [c]) ++ rest) := (joinLines_append _ hlast).symm
    _ = joinLines (text ++ c :: rest) := by simp

/-- Settles O59, by the fields of the text and by the lines it is joined from. -/
theorem loaderRefusesBadFields : Obligations.LoaderRefusesBadFields := by
  refine ⟨fun cfg text f hf hnone => ?_, rfl, fieldValue_plus, fun cfg text rest c hc => ?_⟩
  · simp [parseProgram, fieldValues_none hf hnone]
  · simp only [parseProgram, joinLines_lineFeed text rest hc]

end Sys2Proof.Machine
end

section
/-! ### The pseudo-instructions (O60) -/

namespace Sys2Proof.Machine

/-- Where both operands can be read, a jump goes to its target or to the next instruction (R130). -/
theorem jumpWhen_completes {test : Int → Bool} {ms : Modes} {l1 l2 c t : Int} {s : State}
    (h1 : operand s.mem ms.mode1 l1 = .ok c) (h2 : operand s.mem ms.mode2 l2 = .ok t) :
    jumpWhen test ms l1 l2 s = .next (s.completeAt (if test c then t else s.ip + 3)) := by
  simp [jumpWhen, twoSources_ok_iff.mpr ⟨h1, h2⟩]

/-- The jump of NOP is not taken, in any state (R101). -/
theorem exec_nop (s : State) :
    exec (.jumpIfTrue ⟨.immediate, .immediate, .position⟩ 0 0) s = .next (s.completeAt (s.ip + 3)) :=
  jumpWhen_completes (test := holdsTrue) (ms := ⟨.immediate, .immediate, .position⟩) (l1 := 0) (l2 := 0) rfl rfl

/-- Settles O60: the expansions are laid out as R101 writes them, and NOP tests the IMMEDIATE word 0, which is false. -/
theorem pseudoInstructionsExpand : Obligations.PseudoInstructionsExpand :=
  ⟨fun _ => rfl, fun _ _ => rfl, rfl, rfl, rfl, rfl, ⟨.immediate, .immediate, .position⟩, decode_ok_iff.mpr rfl,
    exec_nop⟩

end Sys2Proof.Machine
end

section
/-! ### The step of a core: when it is enabled, what it fetches, what it runs and how it ends (O6 to O9) -/

namespace Sys2Proof.Machine

/-! #### The four ends of an enabled step -/

section
variable {s t : State}

/-- An instruction completes, blocks, halts or faults (R106). -/
theorem Effect.four_outcomes {i : Instr} (he : Effect i s t) :
    t.status = .running ∨ t = s.blockOnInput ∨ t = s.haltNow ∨ ∃ tr, t = s.raise tr := by
  cases he with
  | write | jump | input | log | put => exact .inl rfl
  | block => exact .inr (.inl rfl)
  | halt => exact .inr (.inr (.inl rfl))
  | fault tr => exact .inr (.inr (.inr ⟨tr, rfl⟩))

/-- So does a step, where one is enabled (R106). -/
theorem StepCase.four_outcomes (hc : StepCase s t) (hen : s.enabled = true) :
    t.status = .running ∨ t = s.blockOnInput ∨ t = s.haltNow ∨ ∃ tr, t = s.raise tr := by
  cases hc with
  | idle h => rw [hen] at h; cases h
  | fetchFault tr => exact .inr (.inr (.inr ⟨tr, rfl⟩))
  | ran i t h hf he => exact he.four_outcomes

end

/-- Settles O8: the updates that block, halt and raise write the status, the flag and the record alone. -/
theorem stepHasFourOutcomes : Obligations.StepHasFourOutcomes := by
  intro s hen
  obtain ⟨t, ht, hc⟩ := step_case s
  refine ⟨t, ht, ?_⟩
  rcases hc.four_outcomes hen with hrun | hblock | hhalt | ⟨tr, hraise⟩
  · exact .inl hrun
  · exact .inr (.inl hblock)
  · exact .inr (.inr (.inl hhalt))
  · exact .inr (.inr (.inr ⟨_, hraise⟩))

/-! #### The instruction at `ip` -/

/-- The words that stand at an address are what the parameter fetch from there reads (step 3 of R103). -/
theorem fetchParams_of_wordsFrom {m : Memory} {k : Nat} {p : Int} {ws rest : List Int}
    (h : wordsFrom m k p = ws ++ rest) : fetchParams m ws.length p = .ok ws := by
  induction ws generalizing k p with
  | nil => rfl
  | cons w ws ih =>
    cases k with
    | zero => cases h
    | succ k =>
      unfold wordsFrom at h
      cases hw : memRead m p with
      | error t => rw [hw] at h; cases h
      | ok v =>
        rw [hw] at h
        obtain ⟨rfl, htail⟩ := List.cons.inj h
        simp only [List.length_cons, fetchParams, hw, ih htail]

/-- The instruction whose encoding stands at an address is the one fetched there (steps 1 to 3 of R103). -/
theorem fetchInstr_of_wordsFrom {m : Memory} {k : Nat} {p : Int} {i : Instr} {rest : List Int}
    (h : wordsFrom m k p = encode i ++ rest) : fetchInstr m p = .ok i := by
  have hdec : decode (instrWord i.opcode i.modes :: i.lits) = .ok (i, []) :=
    decode_ok_iff.mpr (List.append_nil _).symm
  have hread : fetchParams m (i.opcode.nparams + 1) p = .ok (encode i) := by
    simpa [encode, lits_length] using fetchParams_of_wordsFrom h
  unfold fetchParams at hread
  cases hw : memRead m p with
  | error t => rw [hw] at hread; cases hread
  | ok w =>
    cases hp : fetchParams m i.opcode.nparams (p + 1) with
    | error t => simp only [hw, hp] at hread; cases hread
    | ok ps =>
      simp only [hw, hp, Except.ok.injEq, encode, List.cons.injEq] at hread
      obtain ⟨rfl, rfl⟩ := hread
      simp [fetchInstr, hw, decodeWord_instrWord, hp, hdec]

/-- An enabled core runs the instruction it fetches (R103, R105). -/
theorem step_of_fetchInstr {s : State} {i : Instr} (hen : s.enabled = true) (hf : fetchInstr s.mem s.ip = .ok i) :
    step s = exec i s := by
  simp [step, hen, hf]

/-- Settles O6: words that decode begin with the encoding of their instruction, which is the one fetched. -/
theorem stepRunsTheDecodedInstruction : Obligations.StepRunsTheDecodedInstruction :=
  fun _ _ _ hen hdec => step_of_fetchInstr hen (fetchInstr_of_wordsFrom (decode_ok_iff.mp hdec))

/-- A fetch outside memory traps at the address fetched (step 1 of R103). -/
theorem fetchInstr_outside {m : Memory} {p : Int} (h : p < 0 ∨ (m.size : Int) ≤ p) :
    fetchInstr m p = .error (outOfBounds p) := by
  simp [fetchInstr, memRead_error_iff.mpr ⟨rfl, h⟩]

/-- Settles O9: the fetch traps at `ip`, and an enabled core takes that trap. -/
theorem fetchOutsideMemoryFaults : Obligations.FetchOutsideMemoryFaults :=
  fun _ hen hout => step_of_fetchInstr_error hen (fetchInstr_outside hout)

/-! #### When a step is enabled -/

/-- Settles O7, by the status: only a running and a blocked core can have a step. -/
theorem disabledStepChangesNothing : Obligations.DisabledStepChangesNothing := by
  refine fun s => ⟨?_, step_of_disabled⟩
  cases hs : s.status with
  | running => simp [State.enabled, hs]
  | blockedOnInput => simp [State.enabled_iff_of_blocked hs, List.ne_nil_iff_exists_cons]
  | ready | halted | faulted => simp [State.enabled, hs]

end Sys2Proof.Machine
end

section
/-! ### The order in which operands are checked (O28, O32) -/

namespace Sys2Proof.Machine

/-- A POSITION source out of bounds traps with its literal (R87). -/
theorem operand_position_outside {m : Memory} {md : Mode} {lit : Int} (hmd : md = .position)
    (h : lit < 0 ∨ (m.size : Int) ≤ lit) : operand m md lit = .error (outOfBounds lit) := by
  subst hmd
  exact memRead_error_iff.mpr ⟨rfl, h⟩

section
variable {s : State} {i : Instr} {ms : Modes} {l1 l2 l3 : Int} {t : Trap}

/-- The four arithmetic instructions take the trap of their operands (R110, R183). -/
theorem exec_arith_of_trap
    (hi : i = .add ms l1 l2 l3 ∨ i = .multiply ms l1 l2 l3 ∨ i = .lessThan ms l1 l2 l3 ∨ i = .equals ms l1 l2 l3)
    (h : twoSourcesAndDestination s.mem ms l1 l2 l3 = .error t) : exec i s = .next (s.raise t) := by
  have hshared : ∀ f, writeResult f ms l1 l2 l3 s = .next (s.raise t) := fun f => by simp [writeResult, h]
  rcases hi with rfl | rfl | rfl | rfl
  · exact hshared (addWords s.cfg)
  · exact hshared (multiplyWords s.cfg)
  · exact hshared lessThanWords
  · exact hshared equalsWords

/-- The jumps take the trap of their operands (R130, R183). -/
theorem exec_jump_of_trap (hi : i = .jumpIfTrue ms l1 l2 ∨ i = .jumpIfFalse ms l1 l2)
    (h : twoSources s.mem ms l1 l2 = .error t) : exec i s = .next (s.raise t) := by
  have hshared : ∀ test, jumpWhen test ms l1 l2 s = .next (s.raise t) := fun test => by simp [jumpWhen, h]
  rcases hi with rfl | rfl
  · exact hshared holdsTrue
  · exact hshared holdsFalse

end

/-- Settles O28: the operands trap in the order of their numbers, and the instruction takes that trap. -/
theorem arithmeticFaultOrder : Obligations.ArithmeticFaultOrder := by
  refine fun i ms l1 l2 l3 s hi => ⟨?source1, ?source2, ?destination⟩
  case source1 =>
    rintro ⟨hmd, hout⟩
    have h1 := twoSources_error_iff (l2 := l2).mpr (.inl (operand_position_outside hmd hout))
    exact exec_arith_of_trap hi (twoSourcesAndDestination_error_iff.mpr (.inl h1))
  case source2 =>
    rintro a ha ⟨hmd, hout⟩
    have h2 := twoSources_error_iff.mpr (.inr ⟨a, ha, operand_position_outside hmd hout⟩)
    exact exec_arith_of_trap hi (twoSourcesAndDestination_error_iff.mpr (.inl h2))
  case destination =>
    intro a b ha hb hout
    have h3 := destination_error_iff.mpr ⟨rfl, hout⟩
    exact exec_arith_of_trap hi
      (twoSourcesAndDestination_error_iff.mpr (.inr ⟨(a, b), twoSources_ok_iff.mpr ⟨ha, hb⟩, h3⟩))

/-- Settles O32: condition and target are read before the condition is tested, and the jump takes the first trap. -/
theorem jumpFaultOrder : Obligations.JumpFaultOrder := by
  refine fun i ms l1 l2 s hi => ⟨?condition, ?target⟩
  case condition =>
    rintro ⟨hmd, hout⟩
    exact exec_jump_of_trap hi (twoSources_error_iff.mpr (.inl (operand_position_outside hmd hout)))
  case target =>
    rintro c hc ⟨hmd, hout⟩
    exact exec_jump_of_trap hi (twoSources_error_iff.mpr (.inr ⟨c, hc, operand_position_outside hmd hout⟩))

end Sys2Proof.Machine
end

section
/-! ### A network with no enabled step, and a run that has ended (O54) -/

namespace Sys2Proof.Machine

section
variable {n : Network}

theorem Network.enabledAt_of_coreAt {i : Nat} {c : CoreState} (h : n.coreAt i = some c) :
    n.enabledAt i = (n.viewOf c).enabled := by
  simp only [Network.enabledAt, h]

theorem Network.lt_length_of_coreAt {i : Nat} {c : CoreState} (h : n.coreAt i = some c) : i < n.cores.length :=
  (List.getElem?_eq_some_iff.mp (Network.coreAt_eq_some_iff.mp h)).1

/-- Putting a core back at its own place changes nothing. -/
theorem Network.setCore_of_coreAt {i : Nat} {c : CoreState} (h : n.coreAt i = some c) : n.setCore i c = n := by
  obtain ⟨hlt, hget⟩ := List.getElem?_eq_some_iff.mp (Network.coreAt_eq_some_iff.mp h)
  rw [Network.setCore, ← hget, List.set_getElem_self]

/-- Where no core has an enabled step, the core at a place has none (R104). -/
theorem Network.disabled_of_coreAt (hn : n.someEnabled = false) {i : Nat} {c : CoreState} (h : n.coreAt i = some c) :
    (n.viewOf c).enabled = false := by
  have hall := List.any_eq_false.mp hn i (List.mem_range.mpr (Network.lt_length_of_coreAt h))
  simpa [Network.enabledAt_of_coreAt h] using hall

/-- Where no core has an enabled step, no step changes anything (R104, R200). -/
theorem Network.stepCore_of_noneEnabled (hn : n.someEnabled = false) (i : Nat) : n.stepCore i = n := by
  cases h : n.coreAt i with
  | none => exact Network.stepCore_of_none h
  | some c =>
    rw [Network.stepCore_of_coreAt h, State.advance_of_disabled (Network.disabled_of_coreAt hn h)]
    exact Network.setCore_of_coreAt h

/-- A run that has ended keeps its outcome under every move of the host (log entries 12 and 16). -/
theorem Network.outcome_of_hostMove {n' : Network} {m : HostMove} {o : RunOutcome} (ho : n.outcome = some o)
    (hm : n.hostMove m = .ok n') : n'.outcome = some o :=
  Network.outcome_of_ended ((Network.hostMove_remembers hm).1.trans ho)

end

/-- Settles O54: a step of a core with none enabled leaves the network as it is, and what the host remembers before a
move is the outcome after it. -/
theorem deadlockIsForEver : Obligations.DeadlockIsForEver := by
  refine ⟨fun n hn => ⟨Network.stepCore_of_noneEnabled hn, fun steps => ?_⟩, fun n n' m e he hm => ?_⟩
  · exact List.foldl_fixed' (Network.stepCore_of_noneEnabled hn) steps
  · obtain ⟨o, ho, rfl⟩ := Option.map_eq_some_iff.mp he
    have ho' := Network.outcome_of_hostMove ho hm
    refine ⟨?runEnd, ?result, fun hne hinv => ?noResult⟩
    case runEnd => simp [Network.runEnd, ho']
    case result => simp [Network.result, ho, ho']
    case noResult => simp [Network.result, ho', hinv.result_of_outcome ho hne]

end Sys2Proof.Machine
end

section
/-! ### Arithmetic and comparison: the result, the overflow and the frame (O23 to O27, O29) -/

namespace Sys2Proof.Machine

section
variable {s : State} {ms : Modes} {l1 l2 l3 a b : Int} {f : Int → Int → Except Trap Int}

/-- Sources that can be read and a destination inside memory are the operands (R87, R88). -/
theorem twoSourcesAndDestination_of_inside {m : Memory} (h1 : operand m ms.mode1 l1 = .ok a)
    (h2 : operand m ms.mode2 l2 = .ok b) (h0 : 0 ≤ l3) (hL : l3 < m.size) :
    twoSourcesAndDestination m ms l1 l2 l3 = .ok (a, b, l3.toNat) :=
  twoSourcesAndDestination_ok_iff.mpr ⟨h1, h2, destination_ok_iff.mpr ⟨by omega, by omega⟩⟩

/-- A result is written to the destination, where it reads back, `ip` advances by 4, and nothing else changes (R110). -/
theorem writeResult_writes {r : Int} (h1 : operand s.mem ms.mode1 l1 = .ok a) (h2 : operand s.mem ms.mode2 l2 = .ok b)
    (h0 : 0 ≤ l3) (hL : l3 < s.mem.size) (hf : f a b = .ok r) :
    ∃ t, writeResult f ms l1 l2 l3 s = .next t ∧
      t = { s with mem := s.mem.store l3.toNat r, ip := s.ip + 4, status := .running } ∧
      memRead t.mem l3 = .ok r := by
  have hcompletes : writeResult f ms l1 l2 l3 s = .next ((s.storeWord l3.toNat r).completeAt (s.ip + 4)) := by
    simp [writeResult, twoSourcesAndDestination_of_inside h1 h2 h0 hL, hf]
  have hlt : l3.toNat < s.mem.size := by omega
  have hd : l3 = l3.toNat := by omega
  exact ⟨_, hcompletes, rfl, (memRead_store hlt r l3).trans (if_pos hd)⟩

/-- A function of the sources that traps makes the instruction take that trap (R116). -/
theorem writeResult_of_result_trap {t : Trap} (h1 : operand s.mem ms.mode1 l1 = .ok a)
    (h2 : operand s.mem ms.mode2 l2 = .ok b) (h0 : 0 ≤ l3) (hL : l3 < s.mem.size) (hf : f a b = .error t) :
    writeResult f ms l1 l2 l3 s = .next (s.raise t) := by
  simp [writeResult, twoSourcesAndDestination_of_inside h1 h2 h0 hL, hf]

end

/-- Settles O23: the build can hold the sum, so `addWords` answers it. -/
theorem addWritesTheSum : Obligations.AddWritesTheSum := fun _ _ _ _ _ _ _ h1 h2 h0 hL hr =>
  writeResult_writes h1 h2 h0 hL (narrow_ok_iff.mpr ⟨rfl, hr⟩)

/-- Settles O24: the build can hold the product, so `multiplyWords` answers it. -/
theorem multiplyWritesTheProduct : Obligations.MultiplyWritesTheProduct := fun _ _ _ _ _ _ _ h1 h2 h0 hL hr =>
  writeResult_writes h1 h2 h0 hL (narrow_ok_iff.mpr ⟨rfl, hr⟩)

/-- LESS-THAN's word on every build (R113). -/
theorem lessThanWords_eq (a b : Int) : lessThanWords a b = .ok (if a < b then 1 else 0) := by
  simp [lessThanWords, truthWord]

/-- EQUALS's word on every build (R114). -/
theorem equalsWords_eq (a b : Int) : equalsWords a b = .ok (if a = b then 1 else 0) := by
  simp [equalsWords, truthWord]

/-- Settles O25: `lessThanWords` never traps. -/
theorem lessThanWritesOneOrZero : Obligations.LessThanWritesOneOrZero := fun _ _ _ _ a b _ h1 h2 h0 hL =>
  writeResult_writes h1 h2 h0 hL (lessThanWords_eq a b)

/-- Settles O26: `equalsWords` never traps. -/
theorem equalsWritesOneOrZero : Obligations.EqualsWritesOneOrZero := fun _ _ _ _ a b _ h1 h2 h0 hL =>
  writeResult_writes h1 h2 h0 hL (equalsWords_eq a b)

/-- What `N`-bit words cannot hold lies past an end of the range (R7). -/
theorem inRange_eq_false_iff {cfg : Config} {n : Nat} (hn : cfg.wordBits = some n) (v : Int) :
    cfg.inRange v = false ↔ v < -(2 ^ (n - 1)) ∨ 2 ^ (n - 1) - 1 < v := by
  simp only [Config.inRange, hn, Bool.and_eq_false_iff, decide_eq_false_iff_not, not_le]

/-- Settles O27: out of range, sum and product are the trap `WordOverflow`, which the instruction takes. -/
theorem overflowFaultsAndWritesNothing : Obligations.OverflowFaultsAndWritesNothing := by
  intro n ms l1 l2 l3 a b s hn h1 h2 h0 hL
  have htrap {r : Int} (hr : r < -(2 ^ (n - 1)) ∨ 2 ^ (n - 1) - 1 < r) :
      narrow s.cfg r = .error ⟨.wordOverflow, none⟩ :=
    narrow_error_iff.mpr ⟨rfl, (inRange_eq_false_iff hn r).mpr hr⟩
  refine ⟨fun hsum => ?sum, fun hproduct => ?product⟩
  case sum => exact writeResult_of_result_trap (f := addWords s.cfg) h1 h2 h0 hL (htrap hsum)
  case product => exact writeResult_of_result_trap (f := multiplyWords s.cfg) h1 h2 h0 hL (htrap hproduct)

/-- An instruction with three literals faults, or writes a word to the destination its third literal names (R110). -/
theorem Effect.faults_or_writes {i : Instr} {s t : State} {l1 l2 l3 : Int} (he : Effect i s t)
    (hi : i.lits = [l1, l2, l3]) :
    (∃ tr, t = s.raise tr) ∨
      ∃ d r, destination s.mem l3 = .ok d ∧ t = (s.storeWord d r).completeAt (s.ip + 4) := by
  cases he with
  | fault tr => exact .inl ⟨tr, rfl⟩
  | write f ms k1 k2 k3 a b d r op h1 h2 h3 =>
    have hk : i.lits = [k1, k2, k3] := by rcases op with ⟨rfl, -⟩ | ⟨rfl, -⟩ | ⟨rfl, -⟩ | ⟨rfl, -⟩ <;> rfl
    cases hi.symm.trans hk
    exact .inr ⟨d, r, h3, rfl⟩
  | jump test ms k1 k2 c u op => rcases op with ⟨rfl, -⟩ | ⟨rfl, -⟩ <;> cases hi
  | halt ms op => subst op; cases hi
  | block ms k1 d c op | input ms k1 d c v rest op | log ms k1 v op | put ms k1 v c op => subst op; cases hi

/-- Settles O29: the four are the instructions with three literals; a fault keeps memory, and a write is read back at
its destination only. -/
theorem arithmeticFrame : Obligations.ArithmeticFrame := by
  intro i ms l1 l2 l3 s t hi hexec
  have hlits : i.lits = [l1, l2, l3] := by rcases hi with rfl | rfl | rfl | rfl <;> rfl
  obtain ⟨tr, rfl⟩ | ⟨d, r, hd, rfl⟩ := (effect_of_exec hexec).faults_or_writes hlits
  · exact ⟨fun _ _ _ _ => rfl, fun _ => rfl, fun hne => absurd rfl hne, rfl, rfl, rfl, rfl, rfl, rfl, rfl⟩
  · obtain ⟨-, hlt⟩ := destination_ok_iff.mp hd
    refine ⟨fun d' hd' a ha => ?otherAddresses, nofun, fun _ => ⟨rfl, rfl⟩, Memory.store_size s.mem d r, rfl, rfl, rfl,
      rfl, rfl, rfl⟩
    case otherAddresses =>
      cases hd.symm.trans hd'
      exact (memRead_store hlt r a).trans (if_neg ha)

end Sys2Proof.Machine
end

section
/-! ### Control transfer and HALT: the jump target, the frame and the next `ip` (O30, O31, O33, O35, O36) -/

namespace Sys2Proof.Machine

/-! #### Where a jump goes -/

theorem holdsTrue_iff {c : Int} : holdsTrue c = true ↔ c ≠ 0 := bne_iff_ne

theorem holdsFalse_iff {c : Int} : holdsFalse c = true ↔ c = 0 := beq_iff_eq

section
variable {test : Int → Bool} {ms : Modes} {l1 l2 c t : Int} {s : State}

/-- A jump whose condition passes the test goes to its target, whatever the target is (R130, R134). -/
theorem jumpWhen_taken (h1 : operand s.mem ms.mode1 l1 = .ok c) (h2 : operand s.mem ms.mode2 l2 = .ok t)
    (hc : test c = true) : jumpWhen test ms l1 l2 s = .next (s.completeAt t) := by
  rw [jumpWhen_completes h1 h2, if_pos hc]

/-- Either jump, with the condition that takes it, goes to its target (R131, R132, R134). -/
theorem exec_jump_taken {i : Instr} (h1 : operand s.mem ms.mode1 l1 = .ok c) (h2 : operand s.mem ms.mode2 l2 = .ok t)
    (hi : (i = .jumpIfTrue ms l1 l2 ∧ c ≠ 0) ∨ (i = .jumpIfFalse ms l1 l2 ∧ c = 0)) :
    exec i s = .next (s.completeAt t) := by
  rcases hi with ⟨rfl, hc⟩ | ⟨rfl, hc⟩
  · exact jumpWhen_taken h1 h2 (holdsTrue_iff.mpr hc)
  · exact jumpWhen_taken h1 h2 (holdsFalse_iff.mpr hc)

end

/-- Settles O33: the target becomes `ip` of a running core, and the next fetch traps there. -/
theorem jumpTargetIsCheckedAtTheNextFetch : Obligations.JumpTargetIsCheckedAtTheNextFetch := by
  intro i ms l1 l2 c t s h1 h2 hi
  refine ⟨s.completeAt t, exec_jump_taken h1 h2 hi, rfl, rfl, fun hout => ?outside, fun w e hw hd => ?illegal⟩
  case outside => exact step_of_fetchInstr_error rfl (fetchInstr_outside hout)
  case illegal => exact step_of_fetchInstr_error rfl (fetchInstr_of_decodeWord_error hw hd)

/-- Settles O30: the condition passes the test of JUMP-IF-TRUE unless it is 0. -/
theorem jumpIfTrueSetsIp : Obligations.JumpIfTrueSetsIp := by
  intro ms l1 l2 c t s h1 h2
  have hip : (if holdsTrue c then t else s.ip + 3) = if c = 0 then s.ip + 3 else t := by
    simp only [holdsTrue_iff, ite_not]
  rw [← hip]
  exact jumpWhen_completes (test := holdsTrue) h1 h2

/-- Settles O31: the condition passes the test of JUMP-IF-FALSE exactly when it is 0. -/
theorem jumpIfFalseSetsIp : Obligations.JumpIfFalseSetsIp := by
  intro ms l1 l2 c t s h1 h2
  have hip : (if holdsFalse c then t else s.ip + 3) = if c = 0 then t else s.ip + 3 := by
    simp only [holdsFalse_iff]
  rw [← hip]
  exact jumpWhen_completes (test := holdsFalse) h1 h2

/-! #### What a control instruction changes, and the next `ip` of every instruction -/

section
variable {i : Instr} {s t : State}

/-- A jump or HALT faults, completes with a new `ip`, or halts (R130, R133). -/
theorem Effect.faults_completes_or_halts {ms : Modes} {l1 l2 : Int} (he : Effect i s t)
    (hi : i = .jumpIfTrue ms l1 l2 ∨ i = .jumpIfFalse ms l1 l2 ∨ i = .halt ms) :
    (∃ tr, t = s.raise tr) ∨ (∃ p, t = s.completeAt p) ∨ t = s.haltNow := by
  cases he with
  | fault tr => exact .inl ⟨tr, rfl⟩
  | jump => exact .inr (.inl ⟨_, rfl⟩)
  | halt => exact .inr (.inr rfl)
  | write f ks k1 k2 k3 a b d r op => rcases op with ⟨rfl, -⟩ | ⟨rfl, -⟩ | ⟨rfl, -⟩ | ⟨rfl, -⟩ <;> simp at hi
  | block ks k1 d c op | input ks k1 d c v rest op | log ks k1 v op | put ks k1 v c op => subst op; simp at hi

/-- A fault, a block and a halt leave `ip` at the instruction (R23, R136). -/
theorem Effect.ip_of_not_running (he : Effect i s t) (h : t.status ≠ .running) : t.ip = s.ip := by
  cases he with
  | fault | halt | block => rfl
  | write | jump | input | log | put => exact absurd rfl h

end

/-- Settles O35: a fault writes status and record, a jump `ip` and status, HALT status and flag. -/
theorem controlFrame : Obligations.ControlFrame := by
  intro i ms l1 l2 s t hi hexec
  obtain ⟨tr, rfl⟩ | ⟨p, rfl⟩ | rfl := (effect_of_exec hexec).faults_completes_or_halts hi
  case inl => exact ⟨fun _ => rfl, rfl, rfl, rfl, rfl, rfl, rfl, fun _ => rfl, fun hne => absurd rfl hne⟩
  case inr.inl => exact ⟨fun _ => rfl, rfl, rfl, rfl, rfl, rfl, rfl, fun _ => rfl, fun _ => rfl⟩
  case inr.inr => exact ⟨fun _ => rfl, rfl, rfl, rfl, rfl, rfl, rfl, fun hne => absurd rfl hne, fun _ => rfl⟩

/-- Settles O36, by the effects of an instruction: each one that completes names its instruction and its next `ip`. -/
theorem nextIpTable : Obligations.NextIpTable := by
  intro i s t hexec
  have he : Effect i s t := effect_of_exec hexec
  refine ⟨he.ip_of_not_running, fun hrun => ?_⟩
  cases he with
  | write f ms l1 l2 l3 a b d r op =>
    exact .inl ⟨⟨ms, l1, l2, l3, op.imp And.left (Or.imp And.left (Or.imp And.left And.left))⟩, rfl⟩
  | input ms l1 d c v rest op => exact .inr (.inl ⟨⟨ms, l1, .inl op⟩, rfl⟩)
  | log ms l1 v op | put ms l1 v c op => exact .inr (.inl ⟨⟨ms, l1, .inr op⟩, rfl⟩)
  | jump test ms l1 l2 c u op h1 h2 =>
    rcases op with ⟨hi, rfl⟩ | ⟨hi, rfl⟩
    · exact .inr (.inr (.inl ⟨ms, l1, l2, c, u, hi, h1, h2, by simp only [State.completeAt_ip, holdsTrue_iff]⟩))
    · exact .inr (.inr (.inr ⟨ms, l1, l2, c, u, hi, h1, h2, by simp only [State.completeAt_ip, holdsFalse_iff]⟩))
  | fault | halt | block => cases hrun

end Sys2Proof.Machine
end

section
/-! ### INPUT and OUTPUT: each branch, the self-loop and the frames (O38 to O44, O46, O47) -/

namespace Sys2Proof.Machine

/-! #### INPUT, one lemma per branch in the order of its checks (R150) -/

section
variable {s : State} {ms : Modes} {l1 : Int} {d c : Nat}

/-- A destination that traps is reported before the channel is looked at (R150, R183). -/
theorem exec_input_of_trap {t : Trap} (hd : destination s.mem l1 = .error t) :
    exec (.input ms l1) s = .next (s.raise t) := by
  simp [exec, execInput, hd]

/-- With no input channel wired INPUT starves (R153). -/
theorem exec_input_starves (hd : destination s.mem l1 = .ok d) (hc : s.inPort = none) :
    exec (.input ms l1) s = .next (s.raise ⟨.starvedInput, none⟩) := by
  simp [exec, execInput, hd, hc]

/-- On an empty channel INPUT blocks (R152). -/
theorem exec_input_blocks (hd : destination s.mem l1 = .ok d) (hc : s.inPort = some c)
    (hq : Channels.queue s.chans c = []) : exec (.input ms l1) s = .next s.blockOnInput := by
  simp [exec, execInput, hd, hc, chanGet, hq]

/-- On a channel that holds a value INPUT takes the oldest (R150, R157). -/
theorem exec_input_takes {v : Int} {q : List Int} (hd : destination s.mem l1 = .ok d) (hc : s.inPort = some c)
    (hq : Channels.queue s.chans c = v :: q) : exec (.input ms l1) s =
      .next (((s.storeWord d v).setChans (Channels.setQueue s.chans c q)).completeAt (s.ip + 2)) := by
  simp [exec, execInput, hd, hc, chanGet, hq]

/-- A literal inside memory is the destination it names (R88). -/
theorem destination_of_inside {m : Memory} (h0 : 0 ≤ l1) (hL : l1 < m.size) : destination m l1 = .ok l1.toNat :=
  destination_ok_iff.mpr ⟨by omega, by omega⟩

end

/-- Settles O38: the value taken reads back at the destination, and the rest stays on the channel. -/
theorem inputTakesTheOldestValue : Obligations.InputTakesTheOldestValue := by
  intro ms l1 v c q s h0 hL hc hq
  refine ⟨_, exec_input_takes (destination_of_inside h0 hL) hc hq, rfl, ?readsBack, ?rest, fun k hk => ?others⟩
  case readsBack => exact (memRead_store (by omega) v l1).trans (if_pos (by omega))
  case rest => exact (Channels.queue_setQueue _ _ _ _).trans (if_pos rfl)
  case others => exact (Channels.queue_setQueue _ _ _ _).trans (if_neg hk)

/-- Settles O39, by the two branches of INPUT that take no value. -/
theorem inputStarvesOrBlocks : Obligations.InputStarvesOrBlocks := fun _ _ _ h0 hL =>
  ⟨exec_input_starves (destination_of_inside h0 hL), fun _ => exec_input_blocks (destination_of_inside h0 hL)⟩

/-- Settles O40: the destination traps, whatever the channel holds. -/
theorem inputChecksItsDestinationFirst : Obligations.InputChecksItsDestinationFirst := fun _ _ _ hout =>
  exec_input_of_trap (destination_error_iff.mpr ⟨rfl, hout⟩)

/-! #### OUTPUT, one lemma per branch (R151) -/

section
variable {s : State} {ms : Modes} {l1 v : Int} {c : Nat}

/-- OUTPUT takes the trap of its source (R151, R183). -/
theorem exec_output_of_trap {t : Trap} (h : operand s.mem ms.mode1 l1 = .error t) :
    exec (.output ms l1) s = .next (s.raise t) := by
  simp [exec, execOutput, h]

/-- With no output channel wired OUTPUT only logs (R154). -/
theorem exec_output_logs (h : operand s.mem ms.mode1 l1 = .ok v) (hc : s.outPort = none) :
    exec (.output ms l1) s = .next ((s.logOutput v).completeAt (s.ip + 2)) := by
  simp [exec, execOutput, h, hc]

/-- OUTPUT onto a channel with room puts and logs (R151, R154). -/
theorem exec_output_puts (h : operand s.mem ms.mode1 l1 = .ok v) (hc : s.outPort = some c)
    (hroom : chanFull s.cfg s.chans c = false) : exec (.output ms l1) s =
      .next (((s.setChans (chanPut s.chans c v)).logOutput v).completeAt (s.ip + 2)) := by
  simp [exec, execOutput, h, hc, hroom]

/-- OUTPUT onto a full channel overflows (R159). -/
theorem exec_output_overflows (h : operand s.mem ms.mode1 l1 = .ok v) (hc : s.outPort = some c)
    (hfull : chanFull s.cfg s.chans c = true) :
    exec (.output ms l1) s = .next (s.raise ⟨.channelOverflow, none⟩) := by
  simp [exec, execOutput, h, hc, hfull]

/-- A channel has room unless it holds exactly as many values as a finite depth allows (R151). -/
theorem chanFull_eq_false_iff {cfg : Config} {cs : Channels} :
    chanFull cfg cs c = false ↔ cfg.channelDepth ≠ some (Channels.queue cs c).length := by
  rw [← Bool.not_eq_true, chanFull_iff]

end

/-- Settles O41: the wired channel has room, so the value is put at its tail. -/
theorem outputPutsAndLogs : Obligations.OutputPutsAndLogs := by
  intro ms l1 v s hv
  refine ⟨exec_output_logs hv, fun c hc hroom => ?_⟩
  refine ⟨_, exec_output_puts hv hc (chanFull_eq_false_iff.mpr hroom), rfl, ?tail, fun k hk => ?others⟩
  case tail => exact (chanPut_queue _ _ _ _).trans (if_pos rfl)
  case others => exact (chanPut_queue _ _ _ _).trans (if_neg hk)

/-- Settles O42: the source traps with its literal. -/
theorem outputSourceFaults : Obligations.OutputSourceFaults := fun _ _ _ hmd hout =>
  exec_output_of_trap (operand_position_outside hmd hout)

/-- A seeding put onto a full channel is refused (R159). -/
theorem Network.move_seed_of_full {n : Network} {c : Nat} {v : Int} (hs : n.started = false)
    (hv : n.cfg.inRange v = true) (hfull : chanFull n.cfg n.chans c = true) :
    n.move (.seed c v) = .error .seedDoesNotFit := by
  simp [Network.move, hs, hv, hfull]

/-- Settles O43: a channel with as many values as the depth is full, for OUTPUT and for the host. -/
theorem fullChannelOverflows : Obligations.FullChannelOverflows := by
  have hfull {k c : Nat} {cfg : Config} {cs : Channels} (hk : cfg.channelDepth = some k)
      (hlen : (Channels.queue cs c).length = k) : chanFull cfg cs c = true :=
    chanFull_iff.mpr (hk.trans (congrArg some hlen.symm))
  refine fun k => ⟨fun ms l1 v c s hk hv hc hlen => ?output, fun n c v hk hs hv hlen => ?seed⟩
  case output => exact exec_output_overflows hv hc (hfull hk hlen)
  case seed => exact Network.move_seed_of_full (n := n.remember) (by simpa using hs) hv (hfull hk hlen)

/-! #### What INPUT and OUTPUT leave unchanged -/

section
variable {s t : State} {ms : Modes} {l1 : Int}

/-- INPUT faults, blocks, or takes a value from its channel to its destination (R150). -/
theorem Effect.input_faults_blocks_or_takes (he : Effect (.input ms l1) s t) :
    (∃ tr, t = s.raise tr) ∨ t = s.blockOnInput ∨
      ∃ d c v rest, destination s.mem l1 = .ok d ∧ s.inPort = some c ∧
        t = ((s.storeWord d v).setChans (Channels.setQueue s.chans c rest)).completeAt (s.ip + 2) := by
  cases he with
  | fault tr => exact .inl ⟨tr, rfl⟩
  | block => exact .inr (.inl rfl)
  | input ks k1 d c v rest op h1 hc =>
    cases op
    exact .inr (.inr ⟨d, c, v, rest, h1, hc, rfl⟩)
  | write _ _ _ _ _ _ _ _ _ op | jump _ _ _ _ _ _ op | halt _ op | log _ _ _ op | put _ _ _ _ op => simp at op

/-- OUTPUT faults, logs its value, or puts it onto its channel and logs it (R151). -/
theorem Effect.output_faults_logs_or_puts (he : Effect (.output ms l1) s t) :
    (∃ tr, t = s.raise tr) ∨ (∃ v, t = (s.logOutput v).completeAt (s.ip + 2)) ∨
      ∃ c v, s.outPort = some c ∧ t = ((s.setChans (chanPut s.chans c v)).logOutput v).completeAt (s.ip + 2) := by
  cases he with
  | fault tr => exact .inl ⟨tr, rfl⟩
  | log ks k1 v => exact .inr (.inl ⟨v, rfl⟩)
  | put ks k1 v c op h1 hc => exact .inr (.inr ⟨c, v, hc, rfl⟩)
  | write _ _ _ _ _ _ _ _ _ op | jump _ _ _ _ _ _ op | halt _ op | block _ _ _ _ op | input _ _ _ _ _ _ op =>
    simp at op

end

/-- Settles O46: a fault and a block keep memory and channels; a value taken changes its destination and its channel
only. -/
theorem inputFrame : Obligations.InputFrame := by
  intro ms l1 s t hexec
  obtain ⟨tr, rfl⟩ | rfl | ⟨d, c, v, rest, hd, hc, rfl⟩ := (effect_of_exec hexec).input_faults_blocks_or_takes
  · exact ⟨fun _ _ _ _ => rfl, fun _ => ⟨rfl, rfl⟩, fun _ _ => rfl, fun hne => absurd rfl hne, rfl, rfl, rfl, rfl, rfl,
      rfl⟩
  · exact ⟨fun _ _ _ _ => rfl, fun _ => ⟨rfl, rfl⟩, fun _ _ => rfl, fun _ => rfl, rfl, rfl, rfl, rfl, rfl, rfl⟩
  · refine ⟨fun d' hd' a ha => ?otherAddresses, fun hne => absurd rfl hne, fun k hk => ?otherChannels, fun _ => rfl,
      Memory.store_size s.mem d v, rfl, rfl, rfl, rfl, rfl⟩
    case otherAddresses =>
      cases hd.symm.trans hd'
      exact (memRead_store (destination_ok_iff.mp hd).2 v a).trans (if_neg ha)
    case otherChannels =>
      have hkc : k ≠ c := fun h => hk (h ▸ hc)
      exact (Channels.queue_setQueue s.chans c rest k).trans (if_neg hkc)

/-- Settles O47: a fault keeps channels and `outLog`; a value put changes the output channel only. -/
theorem outputFrame : Obligations.OutputFrame := by
  intro ms l1 s t hexec
  obtain ⟨tr, rfl⟩ | ⟨v, rfl⟩ | ⟨c, v, hc, rfl⟩ := (effect_of_exec hexec).output_faults_logs_or_puts
  · exact ⟨fun _ => rfl, rfl, fun _ => ⟨rfl, rfl⟩, fun hne => absurd rfl hne, fun _ _ => rfl, rfl, rfl, rfl, rfl⟩
  · exact ⟨fun _ => rfl, rfl, nofun, fun _ => ⟨rfl, rfl⟩, fun _ _ => rfl, rfl, rfl, rfl, rfl⟩
  · refine ⟨fun _ => rfl, rfl, nofun, fun _ => ⟨rfl, rfl⟩, fun k hk => ?otherChannels, rfl, rfl, rfl, rfl⟩
    case otherChannels =>
      have hkc : k ≠ c := fun h => hk (h ▸ hc)
      exact (chanPut_queue s.chans c v k).trans (if_neg hkc)

/-! #### The self-loop -/

/-- Settles O44: OUTPUT puts `v` at the tail (O41) and keeps memory and ports (O47), and INPUT takes the head of what
then waits (O38). -/
theorem selfLoopReadsBackInOrder : Obligations.SelfLoopReadsBackInOrder := by
  refine ⟨fun c core hready => CoreState.wire_ok_iff.mpr ⟨hready, rfl⟩, rfl, ?_⟩
  intro ms ms' l1 l1' v c s hin hout hv hroom h0 hL
  obtain ⟨t, houtput, -, hput, -⟩ := (outputPutsAndLogs ms l1 v s hv).2 c hout hroom
  obtain ⟨-, hmem, -, -, -, -, hport, -⟩ := outputFrame ms l1 s t houtput
  have hwaiting (q : List Int) : q ++ [v] = q.headD v :: (q ++ [v]).tail := by cases q <;> rfl
  obtain ⟨u, hinput, -, hread, hrest, -⟩ :=
    inputTakesTheOldestValue ms' l1' _ c _ t h0 (hmem ▸ hL) (hport.trans hin) (hput.trans (hwaiting _))
  exact ⟨t, u, houtput, hput, hinput, hread, hrest⟩

end Sys2Proof.Machine
end

section
/-! ### A fault changes nothing but the status and the record (O12) -/

namespace Sys2Proof.Machine

section
variable {s t : State}

theorem State.disabled_of_faulted (h : s.status = .faulted) : s.enabled = false := by
  simp [State.enabled, h]

/-- An instruction enters `Faulted` only by raising a trap (R182). -/
theorem Effect.raised_of_faulted {i : Instr} (he : Effect i s t) (ht : t.status = .faulted) :
    ∃ tr : Trap, tr.Fits s ∧ t = s.raise tr := by
  cases he with
  | fault tr fits => exact ⟨tr, fits, rfl⟩
  | write | jump | halt | block | input | log | put => cases ht

/-- So does a step of a core that has not faulted (R182). -/
theorem StepCase.raised_of_faulted (hc : StepCase s t) (hs : s.status ≠ .faulted) (ht : t.status = .faulted) :
    ∃ tr : Trap, tr.Fits s ∧ t = s.raise tr := by
  cases hc with
  | idle => exact absurd ht hs
  | fetchFault tr hen hf fits => exact ⟨tr, fits, rfl⟩
  | ran i t hen hf he => exact he.raised_of_faulted ht

end

/-- Settles O12: such a step raises a trap that fits the state, which writes the status and the record alone, and a
faulted core has no enabled step. -/
theorem faultsArePreciseAndFinal : Obligations.FaultsArePreciseAndFinal := by
  intro s t hstep hs ht
  obtain ⟨tr, hfits, rfl⟩ := (case_of_step hstep).raised_of_faulted hs ht
  exact ⟨rfl, rfl, rfl, rfl, rfl, rfl, rfl, rfl, ⟨_, rfl, hfits.record⟩,
    step_of_disabled (State.disabled_of_faulted ht)⟩

end Sys2Proof.Machine
end

section
/-! ### Building and starting a network (O51, O52) -/

namespace Sys2Proof.Machine

/-- Settles O51: a start replaces each core by `CoreState.start` of it, and nothing else. -/
theorem startMovesReadyCoresToRunning : Obligations.StartMovesReadyCoresToRunning :=
  fun _ => ⟨rfl, rfl, fun _ => Network.coreAt_startAll⟩

/-- In a ring the last core produces onto channel 0; every other core produces onto the next channel (R192). -/
theorem outChannel_eq {feedback : Bool} {k i : Nat} (hi : i < k) :
    outChannel feedback k i = if feedback = true ∧ i + 1 = k then 0 else i + 1 := by
  cases feedback with
  | false => simp [outChannel]
  | true =>
    by_cases hlast : i + 1 = k
    · simp [outChannel, hlast]
    · simp [outChannel, hlast, Nat.mod_eq_of_lt (show i + 1 < k by omega)]

/-- A built network has a core at each of its `k` places, wired (R191, R192). -/
theorem coreAt_of_built {n : Network} {feedback : Bool} {k : Nat} {c : CoreState}
    (hn : n.cores = (List.range k).map (fun i => some (wiredCore feedback k c i))) {i : Nat} (hi : i < k) :
    n.coreAt i = some (wiredCore feedback k c i) := by
  simp [Network.coreAt_eq_some_iff, hn, hi]

/-- Settles O52: each core is the fresh one, wired, and each channel holds what the host seeds it with. -/
theorem builtNetworkIsWiredAndSeeded : Obligations.BuiltNetworkIsWiredAndSeeded := by
  intro cfg program phases feedback n hbuild
  obtain ⟨hne, hnodup, -, -, c, hc, rfl⟩ := buildNetwork_ok hbuild
  obtain ⟨-, -, rfl⟩ := newCore_ok_iff.mp hc
  refine ⟨hnodup, by simp, ?notStarted, fun i hi => ?core, fun p hp => ?first, fun i p hi hp => ?other,
    fun i hi => ?empty⟩
  case notStarted => simp [Network.started, wiredCore, CoreState.fresh]
  case core =>
    refine ⟨_, coreAt_of_built rfl hi, ?_, rfl, congrArg some (outChannel_eq hi)⟩
    exact Memory.words_ofWords program
  case first => simp [seededChannels_queue, ← List.head?_eq_getElem?, hp]
  case other => simp [seededChannels_queue, hp, Nat.ne_of_gt hi]
  case empty =>
    have hpos : 0 < phases.length := List.length_pos_iff.mpr hne
    simp [seededChannels_queue, hi, show i ≠ 0 by omega]

end Sys2Proof.Machine
end

section
/-! ### The bounded search (O57) -/

namespace Sys2Proof.Machine

/-! #### The orders of a list -/

theorem everyPlace_eq_permutations'Aux (x : Int) (ys : List Int) : everyPlace x ys = List.permutations'Aux x ys := by
  induction ys with
  | nil => rfl
  | cons y ys ih => rw [everyPlace, List.permutations'Aux, ih]

theorem ordersOf_eq_permutations' (xs : List Int) : ordersOf xs = List.permutations' xs := by
  induction xs with
  | nil => rfl
  | cons x xs ih => rw [ordersOf, List.permutations', ih, funext (everyPlace_eq_permutations'Aux x)]

/-- The search runs through exactly the orders of the phase settings (R198). -/
theorem mem_ordersOf {order phases : List Int} : order ∈ ordersOf phases ↔ order.Perm phases := by
  rw [ordersOf_eq_permutations', List.mem_permutations']

/-! #### The largest of a list of results -/

theorem largerOf_choice (x y : Option Int) : largerOf x y = x ∨ largerOf x y = y := by
  cases x with
  | none => exact .inr rfl
  | some a =>
    cases y with
    | none => exact .inl rfl
    | some b => simpa [largerOf] using le_total b a

theorem le_largerOf_left (a : Int) (y : Option Int) : ∃ m, largerOf (some a) y = some m ∧ a ≤ m := by
  cases y with
  | none => exact ⟨a, rfl, le_rfl⟩
  | some b => exact ⟨max a b, rfl, le_max_left a b⟩

theorem le_largerOf_right (x : Option Int) (b : Int) : ∃ m, largerOf x (some b) = some m ∧ b ≤ m := by
  cases x with
  | none => exact ⟨b, rfl, le_rfl⟩
  | some a => exact ⟨max a b, rfl, le_max_right a b⟩

/-- The largest result of a list is one of them. -/
theorem mem_of_foldr_largerOf {xs : List (Option Int)} {r : Int} (h : xs.foldr largerOf none = some r) :
    some r ∈ xs := by
  induction xs with
  | nil => cases h
  | cons x xs ih =>
    rcases largerOf_choice x (xs.foldr largerOf none) with hx | hrest
    · exact List.mem_cons.mpr (.inl (h.symm.trans hx))
    · exact List.mem_cons_of_mem x (ih (hrest.symm.trans h))

/-- Where a list has a result it has a largest one, and that is no smaller. -/
theorem le_foldr_largerOf {xs : List (Option Int)} {a : Int} (h : some a ∈ xs) :
    ∃ m, xs.foldr largerOf none = some m ∧ a ≤ m := by
  induction xs with
  | nil => cases h
  | cons x xs ih =>
    rcases List.mem_cons.mp h with rfl | h
    · exact le_largerOf_left a _
    · obtain ⟨m, hm, ham⟩ := ih h
      obtain ⟨m', hm', hmm'⟩ := le_largerOf_right x m
      exact ⟨m', by rw [List.foldr_cons, hm, hm'], ham.trans hmm'⟩

/-! #### Rounds are a schedule -/

theorem Network.runSchedule_append (n : Network) (as bs : List Nat) :
    n.runSchedule (as ++ bs) = (n.runSchedule as).runSchedule bs := by
  induction as generalizing n with
  | nil => rfl
  | cons i as ih => exact ih (n.choose i)

/-- Every core in turn is one of the schedules (R195). -/
theorem Network.runRounds_eq_runSchedule (n : Network) (rounds : Nat) :
    ∃ schedule, n.runRounds rounds = n.runSchedule schedule := by
  induction rounds generalizing n with
  | zero => exact ⟨[], rfl⟩
  | succ rounds ih =>
    obtain ⟨schedule, h⟩ := ih (n.runSchedule (List.range n.cores.length))
    exact ⟨List.range n.cores.length ++ schedule, by rw [Network.runRounds, h, Network.runSchedule_append]⟩

/-- A result within the bound is the result of a schedule (R195 to R197). -/
theorem completesWith_of_resultWithin {rounds : Nat} {cfg : Config} {program order : List Int} {feedback : Bool}
    {r : Int} (h : resultWithin rounds cfg program feedback order = some r) :
    completesWith cfg program feedback order r := by
  unfold resultWithin at h
  split at h
  · cases h
  · rename_i n hn
    obtain ⟨schedule, hs⟩ := n.startAll.runRounds_eq_runSchedule rounds
    exact ⟨n, schedule, hn, hs ▸ h⟩

/-- Settles O57: the search takes the largest of the results of all the orders, and each of them is the result of a
schedule. -/
theorem boundedSearchFindsTheMaximum : Obligations.BoundedSearchFindsTheMaximum := by
  intro rounds cfg program phases feedback r h
  obtain ⟨order, horder, hr⟩ := List.mem_map.mp (mem_of_foldr_largerOf h)
  refine ⟨⟨order, mem_ordersOf.mp horder, completesWith_of_resultWithin hr⟩, fun order' r' hperm hr' => ?_⟩
  obtain ⟨m, hm, hle⟩ := le_foldr_largerOf (List.mem_map.mpr ⟨order', mem_ordersOf.mpr hperm, hr'⟩)
  obtain rfl : m = r := Option.some.inj (hm.symm.trans h)
  exact hle

end Sys2Proof.Machine
end

section
/-! ### Complete runs agree (O56)

A core blocked at an INPUT and the same core running there do the same once a value waits, so blocking is no progress:
it is left out by reading every blocked core as a running one. What is left is steps that make progress. Two of them by
different cores may be exchanged (O55), so they have the Church-Rosser property, and a network whose cores have all
halted makes none. -/

namespace Sys2Proof.Machine

/-! #### A core without its blocking -/

/-- A blocked core read as running at the INPUT it waits at (R24, R152). -/
def CoreState.unblock (c : CoreState) : CoreState :=
  if c.status = .blockedOnInput then { c with status := .running } else c

/-- The core of a state without its blocking, on the same channels. -/
def State.unblock (s : State) : State :=
  { s with toCoreState := s.toCoreState.unblock }

/-- The core has an enabled step, and it does not block. -/
def State.Progresses (s : State) : Prop :=
  s.enabled = true ∧ s.advance.status ≠ .blockedOnInput

section
variable {s : State}

theorem State.unblock_of_blocked (h : s.status = .blockedOnInput) :
    s.unblock = { s with status := .running } := by
  simp [State.unblock, CoreState.unblock, h]

theorem State.unblock_of_not_blocked (h : s.status ≠ .blockedOnInput) : s.unblock = s := by
  simp [State.unblock, CoreState.unblock, h]

theorem State.unblock_blockOnInput (h : s.status = .running) : s.blockOnInput.unblock = s := by
  rw [State.unblock_of_blocked rfl, ← h]
  rfl

theorem State.Inv.unblock (h : s.Inv) : s.unblock.Inv := by
  by_cases hs : s.status = .blockedOnInput
  · have hfin := h.finished
    have hfau := h.faulted
    rw [State.unblock_of_blocked hs]
    exact State.DataFits.inv_of_running { h.dataFits with } rfl (by simpa [hs] using hfin) (by simpa [hs] using hfau)
  · rwa [State.unblock_of_not_blocked hs]

/-- A running core blocks, or makes progress (R106). -/
theorem State.blocks_or_progresses (h : s.status = .running) : s.advance = s.blockOnInput ∨ s.Progresses := by
  have hen : s.enabled = true := by simp [State.enabled, h]
  rcases (case_of_step (step_eq_advance s)).four_outcomes hen with hr | hb | hh | ⟨tr, hf⟩
  · exact .inr ⟨hen, by simp [hr]⟩
  · exact .inl hb
  · exact .inr ⟨hen, by simp [hh]⟩
  · exact .inr ⟨hen, by simp [hf]⟩

/-- A blocked core on whose channel a value waits does what the running core does (R24, R152). -/
theorem State.Inv.unblock_progresses (h : s.Inv) (hs : s.status = .blockedOnInput) (hen : s.enabled = true) :
    s.unblock.Progresses ∧ s.unblock.advance = s.advance := by
  obtain ⟨ms, l1, d, hf, hd, -⟩ := h.waits hs
  obtain ⟨c, v, q, hc, hq⟩ := (State.enabled_iff_of_blocked hs).mp hen
  have hown := State.advance_eq_of_step (step_input_completes hen hf hd hc hq)
  have hrun := State.advance_eq_of_step (step_input_completes (s := { s with status := .running }) rfl hf hd hc hq)
  rw [State.unblock_of_blocked hs]
  exact ⟨⟨rfl, by simp [hrun]⟩, hrun.trans hown.symm⟩

/-- Without the blocking, a step changes nothing or is a step that makes progress. -/
theorem State.Inv.advance_unblock (h : s.Inv) :
    s.advance.unblock = s.unblock ∨ (s.unblock.Progresses ∧ s.unblock.advance = s.advance) := by
  cases hen : s.enabled with
  | false => exact .inl (by rw [State.advance_of_disabled hen])
  | true =>
    cases hs : s.status with
    | running =>
      rw [State.unblock_of_not_blocked (s := s) (by simp [hs])]
      rcases State.blocks_or_progresses hs with hb | hp
      · exact .inl (by rw [hb, State.unblock_blockOnInput hs])
      · exact .inr ⟨hp, rfl⟩
    | blockedOnInput => exact .inr (h.unblock_progresses hs hen)
    | ready | halted | faulted => simp [State.enabled, hs] at hen

/-- A core with no enabled step makes no progress, blocked or not: the INPUT of a blocked one blocks again (R152). -/
theorem State.Inv.not_progresses_unblock (h : s.Inv) (hdis : s.enabled = false) : ¬s.unblock.Progresses := by
  rintro ⟨hen, hadv⟩
  by_cases hs : s.status = .blockedOnInput
  · obtain ⟨ms, l1, d, hf, hd, hport⟩ := h.waits hs
    obtain ⟨c, hc⟩ := Option.isSome_iff_exists.mp hport
    rw [State.unblock_of_blocked hs] at hen hadv
    cases hq : Channels.queue s.chans c with
    | nil =>
      have hblocks := State.advance_eq_of_step ((step_of_fetchInstr hen hf).trans (exec_input_blocks hd hc hq))
      exact hadv (congrArg (fun t : State => t.status) hblocks)
    | cons v q => exact absurd ((State.enabled_iff_of_blocked hs).mpr ⟨c, v, q, hc, hq⟩) (by simp [hdis])
  · rw [State.unblock_of_not_blocked hs, hdis] at hen
    cases hen

end

/-! #### A network without its blocking -/

/-- Every core without its blocking, on the same channels. -/
def Network.unblock (n : Network) : Network :=
  { n with cores := n.cores.map (fun o => o.map CoreState.unblock) }

/-- Core `i` is there and makes progress. -/
def Network.ProgressesAt (n : Network) (i : Nat) : Prop :=
  ∃ c, n.coreAt i = some c ∧ (n.viewOf c).Progresses

section
variable {n : Network} {i : Nat} {c : CoreState}

theorem CoreState.unblock_keeps_ports (c : CoreState) :
    c.unblock.inPort = c.inPort ∧ c.unblock.outPort = c.outPort := by
  unfold CoreState.unblock
  split <;> exact ⟨rfl, rfl⟩

theorem CoreState.unblock_of_not_blocked (h : c.status ≠ .blockedOnInput) : c.unblock = c := if_neg h

@[simp] theorem Network.coreAt_unblock : n.unblock.coreAt i = (n.coreAt i).map CoreState.unblock := by
  simp only [Network.coreAt, Network.unblock, List.getElem?_map]
  cases n.cores[i]? <;> rfl

/-- A network with no blocked core is itself without its blocking. -/
theorem Network.unblock_of_none_blocked (h : ∀ i c, n.coreAt i = some c → c.status ≠ .blockedOnInput) :
    n.unblock = n := by
  have hcores : n.cores.map (fun o => o.map CoreState.unblock) = n.cores := by
    refine (List.map_congr_left fun o ho => ?_).trans (List.map_id _)
    cases o with
    | none => rfl
    | some c =>
      obtain ⟨i, hi⟩ := List.mem_iff_getElem?.mp ho
      exact congrArg some (CoreState.unblock_of_not_blocked (h i c (Network.coreAt_eq_some_iff.mpr hi)))
  rw [Network.unblock, hcores]

theorem Network.unblock_setCore : (n.setCore i c).unblock = n.unblock.setCore i c.unblock := by
  simp [Network.unblock, Network.setCore, List.map_set]

theorem Network.Inv.unblock (h : n.Inv) : n.unblock.Inv := by
  have hcore (i : Nat) (c' : CoreState) (hi : n.unblock.coreAt i = some c') :
      ∃ c, n.coreAt i = some c ∧ c.unblock = c' := by
    rwa [Network.coreAt_unblock, Option.map_eq_some_iff] at hi
  refine h.replaceCores (h.wired.of_same_ports fun i c' hi => ?_) fun i c' hi => ?_
  · obtain ⟨c, hc, rfl⟩ := hcore i c' hi
    exact ⟨c, hc, c.unblock_keeps_ports⟩
  · obtain ⟨c, hc, rfl⟩ := hcore i c' hi
    exact (h.cores i c hc).unblock

/-- Without the blocking, a step of a network changes nothing or is a step that makes progress. -/
theorem Network.Inv.unblock_stepCore (h : n.Inv) (i : Nat) : (n.stepCore i).unblock = n.unblock ∨
    (n.unblock.ProgressesAt i ∧ (n.stepCore i).unblock = n.unblock.stepCore i) := by
  cases hi : n.coreAt i with
  | none => exact .inl (by rw [Network.stepCore_of_none hi])
  | some c =>
    have hi' : n.unblock.coreAt i = some c.unblock := by simp [hi]
    have hstep : (n.stepCore i).unblock = { n.unblock.setCore i (n.viewOf c).advance.unblock.toCoreState with
        chans := (n.viewOf c).advance.chans } := by
      rw [Network.stepCore_of_coreAt hi]
      exact congrArg (fun m : Network => { m with chans := (n.viewOf c).advance.chans }) Network.unblock_setCore
    rcases (h.cores i c hi).advance_unblock with hsame | ⟨hp, hadv⟩
    · refine .inl ?_
      have hchans : (n.viewOf c).advance.chans = n.chans := congrArg State.chans hsame
      rw [hstep, hsame, hchans]
      exact Network.setCore_of_coreAt hi'
    · refine .inr ⟨⟨_, hi', hp⟩, ?_⟩
      rw [hstep, ← hadv, State.unblock_of_not_blocked hp.2, Network.stepCore_of_coreAt hi']
      rfl

end

/-! #### Progress has the Church-Rosser property -/

/-- From a well-formed network with unbounded channels, one step that makes progress (R195). -/
structure Network.Progress (n n' : Network) : Prop where
  inv : n.Inv
  unbounded : n.cfg.channelDepth = none
  step : ∃ i, n.ProgressesAt i ∧ n' = n.stepCore i

section
variable {n n' : Network} {i j : Nat} {c : CoreState}

/-- Progress of one core keeps that of another: it supplies the other core as before (R201). -/
theorem Network.ProgressesAt.stepCore (hn : n.Inv) (hd : n.cfg.channelDepth = none) (hij : i ≠ j)
    (hi : n.ProgressesAt i) (hj : n.ProgressesAt j) : (n.stepCore i).ProgressesAt j := by
  obtain ⟨ci, hci, heni, hbi⟩ := hi
  obtain ⟨cj, hcj, henj, hbj⟩ := hj
  obtain ⟨u, hu, hui⟩ := State.advance_usesPorts heni fun h => hbi (h ▸ rfl)
  obtain ⟨w, -, hwj⟩ := State.advance_usesPorts henj fun h => hbj (h ▸ rfl)
  have hchans : (n.viewOf ci).advance.chans = u.apply n.chans := congrArg State.chans (hui n.chans (.refl _))
  have hsup : (n.viewOf cj).Supplies (n.viewOf ci).advance.chans :=
    hchans ▸ hu.supplies (t := n.viewOf cj) (hn.wired.apart hij hci hcj) hd
  refine ⟨cj, (Network.coreAt_stepCore_of_ne hij.symm).trans hcj, ?_⟩
  have hview : (n.stepCore i).viewOf cj = (n.viewOf cj).setChans (n.viewOf ci).advance.chans := by
    rw [Network.stepCore_of_coreAt hci]
    rfl
  rw [hview]
  exact ⟨hsup.enabled henj, by rw [hwj _ hsup]; exact hbj⟩

/-- Two steps that make progress lead to one network, by one more step of each (O55). -/
theorem Network.Progress.diamond {a b c : Network} (hab : a.Progress b) (hac : a.Progress c) :
    ∃ d, Relation.ReflGen Network.Progress b d ∧ Relation.ReflTransGen Network.Progress c d := by
  obtain ⟨ha, hd, i, hi, rfl⟩ := hab
  obtain ⟨-, -, j, hj, rfl⟩ := hac
  by_cases hij : i = j
  · subst hij
    exact ⟨_, .refl, .refl⟩
  · have hcomm : (a.stepCore i).stepCore j = (a.stepCore j).stepCore i := by
      obtain ⟨ci, hci, heni, hbi⟩ := hi
      obtain ⟨cj, hcj, henj, hbj⟩ := hj
      exact stepsOfTwoCoresCommute a i j ci cj ha hd hij hci hcj heni henj hbi hbj
    have hb : (a.stepCore i).Progress ((a.stepCore i).stepCore j) :=
      ⟨ha.stepCore i, Network.stepCore_cfg (n := a) ▸ hd, j, hi.stepCore ha hd hij hj, rfl⟩
    have hc : (a.stepCore j).Progress ((a.stepCore i).stepCore j) :=
      ⟨ha.stepCore j, Network.stepCore_cfg (n := a) ▸ hd, i, hj.stepCore ha hd (Ne.symm hij) hi, hcomm⟩
    exact ⟨_, .single hb, .single hc⟩

theorem Network.halted_of_allHalted (h : n.allHalted = true) (hi : n.coreAt i = some c) : c.status = .halted := by
  have hmem := List.mem_of_getElem? (Network.coreAt_eq_some_iff.mp hi)
  simpa using List.all_eq_true.mp h _ hmem

theorem Network.unblock_of_allHalted (h : n.allHalted = true) : n.unblock = n :=
  Network.unblock_of_none_blocked fun _ _ hi => by simp [Network.halted_of_allHalted h hi]

/-- Where all cores have halted without the blocking, none was blocked. -/
theorem Network.unblock_of_allHalted_unblock (h : n.unblock.allHalted = true) : n.unblock = n := by
  refine Network.unblock_of_none_blocked fun i c hi hblocked => ?_
  have hi' : n.unblock.coreAt i = some c.unblock := by rw [Network.coreAt_unblock, hi, Option.map_some]
  have hc : c.unblock.status = .halted := Network.halted_of_allHalted h hi'
  simp [CoreState.unblock, hblocked] at hc

/-- A network whose cores have all halted has no enabled step (R24, R104). -/
theorem Network.noneEnabled_of_allHalted (h : n.allHalted = true) : n.someEnabled = false := by
  refine List.any_eq_false.mpr fun i _ => ?_
  cases hi : n.coreAt i with
  | none => simp [Network.enabledAt, hi]
  | some c =>
    simp [Network.enabledAt_of_coreAt hi, State.disabled_of_halted (s := n.viewOf c) (Network.halted_of_allHalted h hi)]

/-- Without the blocking, a network no core of which has an enabled step makes no progress. -/
theorem Network.Inv.eq_of_progress (h : n.Inv) (hn : n.someEnabled = false)
    (hp : Relation.ReflTransGen Network.Progress n.unblock n') : n' = n.unblock := by
  rcases hp.cases_head with rfl | ⟨m, ⟨-, -, i, ⟨c', hc', hprog⟩, -⟩, -⟩
  · rfl
  · rw [Network.coreAt_unblock, Option.map_eq_some_iff] at hc'
    obtain ⟨c, hc, rfl⟩ := hc'
    exact absurd hprog ((h.cores i c hc).not_progresses_unblock (Network.disabled_of_coreAt hn hc))

/-- A faulted core is never changed (R182, R185). -/
theorem Network.coreAt_of_progress_of_faulted (hp : Relation.ReflTransGen Network.Progress n n')
    (hi : n.coreAt i = some c) (hc : c.status = .faulted) : n'.coreAt i = some c := by
  induction hp with
  | refl => exact hi
  | @tail m m' _ hstep ih =>
    obtain ⟨-, -, j, ⟨d, hd, hen, -⟩, rfl⟩ := hstep
    have hij : i ≠ j := by
      rintro rfl
      obtain rfl : c = d := Option.some.inj (ih.symm.trans hd)
      simp [State.disabled_of_faulted (s := m.viewOf c) hc] at hen
    exact (Network.coreAt_stepCore_of_ne hij).trans ih

end

/-! #### Schedules and their ends -/

section
variable {n n' : Network}

theorem Network.choose_eq (n : Network) (i : Nat) : n.choose i = n ∨ n.choose i = n.stepCore i := by
  unfold Network.choose
  split
  · exact .inl rfl
  · exact .inr rfl

/-- A run that has ended stays as it is (R196). -/
theorem Network.runSchedule_of_ended (h : n.runEnd.isSome = true) (schedule : List Nat) :
    n.runSchedule schedule = n := by
  induction schedule with
  | nil => rfl
  | cons i rest ih => rwa [Network.runSchedule, Network.choose, if_pos h]

/-- Without the blocking, a schedule is steps that make progress; it keeps the invariant. -/
theorem Network.Inv.runSchedule (h : n.Inv) (hd : n.cfg.channelDepth = none) (schedule : List Nat) :
    (n.runSchedule schedule).Inv ∧
      Relation.ReflTransGen Network.Progress n.unblock (n.runSchedule schedule).unblock := by
  induction schedule generalizing n with
  | nil => exact ⟨h, .refl⟩
  | cons i rest ih =>
    rw [Network.runSchedule]
    rcases n.choose_eq i with hc | hc
    · rw [hc]
      exact ih h hd
    · obtain ⟨hinv, hp⟩ := ih (h.stepCore i) (Network.stepCore_cfg (n := n) ▸ hd)
      rw [hc]
      refine ⟨hinv, ?_⟩
      rcases h.unblock_stepCore i with hsame | ⟨hi, hstep⟩
      · rwa [hsame] at hp
      · exact hp.head ⟨h.unblock, hd, i, hi, hstep⟩

/-- A schedule changes nothing of what the host remembers. -/
theorem Network.runSchedule_ended (n : Network) (schedule : List Nat) : (n.runSchedule schedule).ended = n.ended := by
  induction schedule generalizing n with
  | nil => rfl
  | cons i rest ih =>
    rw [Network.runSchedule, ih]
    rcases n.choose_eq i with hc | hc <;> rw [hc]
    exact (n.stepCore_remembers i).1

/-- Where the host remembers no end, the states of the cores say how the run has ended (R196). -/
theorem Network.runEnd_of_not_ended (h : n.ended = none) : n.runEnd = n.endOfCores := by
  simp [Network.runEnd, Network.outcome, h, Function.comp_def]

theorem Network.exists_of_someFaulted (h : n.someFaulted = true) :
    ∃ i c, n.coreAt i = some c ∧ c.status = .faulted := by
  obtain ⟨o, ho, hc⟩ := List.any_eq_true.mp h
  obtain ⟨c, rfl, hc⟩ := (Option.any_eq_true _ _).mp hc
  obtain ⟨i, hi⟩ := List.mem_iff_getElem?.mp ho
  exact ⟨i, c, Network.coreAt_eq_some_iff.mpr hi, by simpa using hc⟩

/-- Each of the three ends says what state the cores are in (R196). -/
theorem Network.cores_of_end {e : RunEnd} (h : n.endOfCores = some e) :
    (e = .faulted ∧ n.someFaulted = true) ∨ (e = .complete ∧ n.allHalted = true) ∨
      (e = .deadlocked ∧ n.someEnabled = false) := by
  unfold Network.endOfCores at h
  split at h
  · cases h
  · split at h
    · rename_i hf
      cases h
      exact .inl ⟨rfl, hf⟩
    · split at h
      · rename_i hh
        cases h
        exact .inr (.inl ⟨rfl, hh⟩)
      · split at h
        · cases h
        · rename_i hn
          cases h
          exact .inr (.inr ⟨rfl, by simpa using hn⟩)

/-- Where a run has ended, some core has faulted or none has an enabled step (R196). -/
theorem Network.someFaulted_or_noneEnabled (h : n.endOfCores.isSome = true) :
    n.someFaulted = true ∨ n.someEnabled = false := by
  obtain ⟨e, he⟩ := Option.isSome_iff_exists.mp h
  rcases Network.cores_of_end he with ⟨-, hf⟩ | ⟨-, hh⟩ | ⟨-, hn⟩
  · exact .inl hf
  · exact .inr (Network.noneEnabled_of_allHalted hh)
  · exact .inr hn

/-- Two ends that progress from one network reaches, one of them complete, are the same (Church-Rosser): the complete
end makes no progress, so the other one makes progress to it. It then has no faulted core, so no core of it can step. -/
theorem Network.eq_of_progress_to_ends {m m' : Network} (hm : m.endOfCores = some .complete)
    (hm' : m'.endOfCores.isSome = true) (hinv : m.Inv) (hinv' : m'.Inv)
    (hp : Relation.ReflTransGen Network.Progress n m.unblock)
    (hp' : Relation.ReflTransGen Network.Progress n m'.unblock) : m' = m := by
  have hhalted : m.allHalted = true := by simpa using Network.cores_of_end hm
  obtain ⟨d, hd, hd'⟩ := Relation.church_rosser (fun _ _ _ => Network.Progress.diamond) hp hp'
  obtain rfl : d = m :=
    (hinv.eq_of_progress (Network.noneEnabled_of_allHalted hhalted) hd).trans (Network.unblock_of_allHalted hhalted)
  rcases Network.someFaulted_or_noneEnabled hm' with hf | hnone
  · obtain ⟨i, c, hi, hc⟩ := Network.exists_of_someFaulted hf
    have hi' : m'.unblock.coreAt i = some c := by
      rw [Network.coreAt_unblock, hi, Option.map_some, CoreState.unblock_of_not_blocked (by simp [hc])]
    have hstays := Network.coreAt_of_progress_of_faulted hd' hi' hc
    exact absurd (hc.symm.trans (Network.halted_of_allHalted hhalted hstays)) (by decide)
  · obtain rfl : d = m'.unblock := hinv'.eq_of_progress hnone hd'
    exact (Network.unblock_of_allHalted_unblock hhalted).symm

end

/-- Settles O56: a run that has ended stays so, and from any other start both schedules are progress to an end. -/
theorem completeRunsAgree : Obligations.CompleteRunsAgree := by
  intro n schedule schedule' hn hd hcomplete hended
  by_cases hstart : n.runEnd.isSome = true
  · rw [Network.runSchedule_of_ended hstart, Network.runSchedule_of_ended hstart]
  · have hnone : n.ended = none := by
      cases ho : n.ended with
      | none => rfl
      | some o => simp [Network.runEnd, Network.outcome_of_ended ho] at hstart
    rw [Network.runEnd_of_not_ended ((n.runSchedule_ended _).trans hnone)] at hcomplete hended
    obtain ⟨hinv, hp⟩ := hn.runSchedule hd schedule
    obtain ⟨hinv', hp'⟩ := hn.runSchedule hd schedule'
    exact Network.eq_of_progress_to_ends hcomplete hended hinv hinv' hp hp'

end Sys2Proof.Machine
end

section
/-! ### A core as it is built (O18) -/

namespace Sys2Proof.Machine

/-- Each word of a loaded program is read at its own address (R22, R51). -/
theorem memRead_ofWords {program : List Int} {i : Nat} {v : Int} (h : program[i]? = some v) :
    memRead (Memory.ofWords program) (i : Int) = .ok v := by
  have hlt : i < (Memory.ofWords program).size := (List.getElem?_eq_some_iff.mp h).1
  have hword : (Memory.ofWords program).word i = v := by rw [Memory.ofWords_word, h, Option.getD_some]
  rw [memRead_ofNat hlt, hword]

/-- Settles O18: the core built is the fresh one over the program's own words. -/
theorem newCoreIsAtReset : Obligations.NewCoreIsAtReset := by
  intro cfg program c hnew
  obtain ⟨-, -, rfl⟩ := newCore_ok_iff.mp hnew
  exact ⟨Memory.ofWords_size program, fun _ _ => memRead_ofWords, rfl, rfl, rfl, rfl, rfl, rfl, rfl⟩

end Sys2Proof.Machine
end
